-- ==== Sys2Proof/Word.lean ====
section
/-! DEFINITION. The two word types of the CORE (R11): a byte, and the 32-bit command and response words. -/

namespace Sys2Proof

/-- A byte: 8 bits, read as an unsigned integer 0 to 255 (R11). -/
abbrev Byte := BitVec 8

/-- A 32-bit word: a command word (R60) or a response word (R138). -/
abbrev Word := BitVec 32

end Sys2Proof
end

