-- ==== Sys2Proof/Config.lean ====
section
/-! DEFINITION. What is fixed for a run and open to the model: the block size `B` and the keyed block transform
`(E, D)` (R8, R9), the order in which `CBC_DEC` calls `D` (R49, U4), and what the unwritten registers hold after
reset (R26, R35). Every open value is an opaque constant: nothing can be proved of which value it is. -/

namespace Sys2Proof

/-- The configuration `(B, E, D)` of R8 and R9: a block size `1 <= B <= 255` and an invertible map of the `B`-byte
blocks. `E` is the map and `D` its inverse, so `bt_inverse` (`D (E u) = u` and `E (D u) = u`) is all that is known. -/
structure BlockTransform where
  /-- The block size `B` in bytes. -/
  size : Nat
  one_le_size : 1 ≤ size
  size_le : size ≤ 255
  /-- The keyed transform: `E` forwards, `D` backwards. -/
  perm : Equiv.Perm (Vector Byte size)

namespace Config

/-- The block size less one: a free value in `0 .. 254`, so that `1 <= B <= 255` and nothing more is known (R8, D6).
DESIGN CHOICE, log entry 2: safe. -/
opaque blockSizePred : Fin 255

/-- The block size `B` (R8). -/
def blockSize : Nat := blockSizePred.val + 1

/-- The keyed block transform: a free invertible map of the `B`-byte blocks (R9, D7). DESIGN CHOICE, log entry 3: unsafe
where a real transform is stateful or can fail. -/
opaque transform : Equiv.Perm (Vector Byte blockSize)

/-- The configuration `cfg = (B, E, D)` of this CORE's run (R15). -/
def bt : BlockTransform where
  size := blockSize
  one_le_size := Nat.succ_le_succ (Nat.zero_le _)
  size_le := Nat.succ_le_of_lt blockSizePred.isLt
  perm := transform

/-- The order in which a `CBC_DEC` of `n` blocks calls `D`: left open (R49, U4), so a free permutation for each
value of the counter `State.orderDraws` and each `n`. DESIGN CHOICE, log entry 4: safe for claims about one run. -/
opaque decOrder : Nat → (n : Nat) → Equiv.Perm (Fin n)

/-- What `CV` holds after reset, while `CBC_VALID = 0`: the spec gives no value (R26, R35). DESIGN CHOICE, log entry 1:
unsafe. -/
opaque resetCv : Vector Byte blockSize

/-- What `S` holds after reset, while `RC4_VALID = 0`: the spec gives no value (R26, R35). DESIGN CHOICE, log entry 1:
unsafe. -/
opaque resetS : Vector Byte 256

/-- What `I` holds after reset, while `RC4_VALID = 0`: the spec gives no value (R26, R35). DESIGN CHOICE, log entry 1:
unsafe. -/
opaque resetI : Byte

/-- What `J` holds after reset, while `RC4_VALID = 0`: the spec gives no value (R26, R35). DESIGN CHOICE, log entry 1:
unsafe. -/
opaque resetJ : Byte

end Config

end Sys2Proof
end

