-- ==== Sys2Proof/Syntax.lean ====
section
/-! DEFINITION. The eight commands of the opcode map (R63), each with the input buffer it is delivered with
(R60, R61: a command is its word and exactly `LEN` bytes of input, and names no register, mode or condition). -/

namespace Sys2Proof

/-- A command of R63 with its input buffer `IN`. `LEN` is the length of the buffer (R61, R73), so the declared
and the supplied length cannot differ (U6). -/
inductive Instr where
  /-- `NOP` (R120): the buffer is consumed and ignored. -/
  | nop (input : List Byte)
  /-- `ECB_ENC` (R81): the buffer is the plaintext. -/
  | ecbEnc (input : List Byte)
  /-- `ECB_DEC` (R82): the buffer is the ciphertext. -/
  | ecbDec (input : List Byte)
  /-- `CBC_LDIV` (R91): the buffer is the IV. -/
  | cbcLdiv (input : List Byte)
  /-- `CBC_ENC` (R92): the buffer is the plaintext. -/
  | cbcEnc (input : List Byte)
  /-- `CBC_DEC` (R93): the buffer is the ciphertext. -/
  | cbcDec (input : List Byte)
  /-- `RC4_KSA` (R106): the buffer is the key. -/
  | rc4Ksa (input : List Byte)
  /-- `RC4_PRGA` (R108): the buffer is the text the keystream is XORed with. -/
  | rc4Prga (input : List Byte)
  deriving DecidableEq, Repr

/-- The input buffer `IN` of a command. -/
def Instr.input : Instr → List Byte
  | .nop x => x
  | .ecbEnc x => x
  | .ecbDec x => x
  | .cbcLdiv x => x
  | .cbcEnc x => x
  | .cbcDec x => x
  | .rc4Ksa x => x
  | .rc4Prga x => x

/-- `LEN`: the length of the input buffer in bytes (R60). -/
def Instr.len (i : Instr) : Nat := i.input.length

end Sys2Proof
end

