-- ==== Sys2Proof/WellFormed.lean ====
section
/-! DEFINITION. Which commands can be encoded: those whose `LEN` fits the 24-bit field of the command word (R10, R60). -/

namespace Sys2Proof

/-- The largest `LEN` of one command, 16,777,215 (R10, R60). -/
def maxLen : Nat := 2 ^ 24 - 1

/-- A command is well formed when its buffer is no longer than the 24-bit `LEN` can say (R60). -/
abbrev Instr.WellFormed (i : Instr) : Prop := i.len ≤ maxLen

end Sys2Proof
end

