-- ==== Sys2Proof/Decode.lean ====
section
/-! DEFINITION. The command word `CMD32` (R60 to R66 step 1): its fields, the delivered command, the decoder, which
rejects by name, and the encoder. Words are abstract 32-bit numbers: their serialisation is not specified (R42, D20). -/

namespace Sys2Proof

/-- `OP`: bits 31:24 of the command word (R60). -/
def opField (w : Word) : Byte := w.extractLsb' 24 8

/-- `LEN`: bits 23:0 of the command word, an unsigned count of bytes (R60, R61). -/
def lenField (w : Word) : Nat := (w.extractLsb' 0 24).toNat

/-- A delivered command: its word with exactly `LEN` bytes of input. A command whose buffer has another length
cannot be formed (R15, R61, U6; DEDUCED, log entry 9: safe). -/
structure Command where
  /-- The 32-bit command word (R60). -/
  word : Word
  /-- The input buffer `IN`. -/
  input : List Byte
  length_eq : input.length = lenField word
  deriving DecidableEq, Repr

/-- Why a word and a buffer are no command of the CORE. -/
inductive DecodeError where
  /-- `OP` is none of the eight values of R63 (R65); the machine answers `ERR_ILLEGAL`. -/
  | illegalOpcode (op : Byte)
  /-- The buffer does not have the `LEN` bytes the word declares (R61, R170): the pair is not a command, and no
  `Command` can hold it. -/
  | lengthMismatch (declared supplied : Nat)
  deriving DecidableEq, Repr

/-- The command an opcode selects (R63). All 8 bits of `OP` are matched: no nibble is decoded by itself (R64). -/
def instrOfOp (op : Byte) (input : List Byte) : Option Instr :=
  if op = 0x00#8 then some (.nop input)
  else if op = 0x10#8 then some (.ecbEnc input)
  else if op = 0x11#8 then some (.ecbDec input)
  else if op = 0x20#8 then some (.cbcLdiv input)
  else if op = 0x21#8 then some (.cbcEnc input)
  else if op = 0x22#8 then some (.cbcDec input)
  else if op = 0x30#8 then some (.rc4Ksa input)
  else if op = 0x31#8 then some (.rc4Prga input)
  else none

/-- The decoder of R66 step 1, total on every delivered command. -/
def decode (c : Command) : Except DecodeError Instr :=
  match instrOfOp (opField c.word) c.input with
  | some i => .ok i
  | none => .error (.illegalOpcode (opField c.word))

/-- The command made of a word and a buffer, or the name of why there is none (R61). -/
def commandOf (w : Word) (input : List Byte) : Except DecodeError Command :=
  if h : input.length = lenField w then .ok ⟨w, input, h⟩
  else .error (.lengthMismatch (lenField w) input.length)

/-- Decoding any word with any buffer. -/
def decodeParts (w : Word) (input : List Byte) : Except DecodeError Instr :=
  match commandOf w input with
  | .ok c => decode c
  | .error e => .error e

/-- The extent of a command in bytes, told from its word alone: 4 bytes of word and `LEN` bytes of input (R62). -/
def commandExtent (w : Word) : Nat := 4 + lenField w

/-- The command that starts with the word `w` on a stream of input bytes, and the bytes after it: whether the command
is legal or not, its whole buffer is taken, so that the next word is read from the right place (R62, R130). -/
def takeCommand (w : Word) (stream : List Byte) : Option (Command × List Byte) :=
  if h : lenField w ≤ stream.length then
    some (⟨w, stream.take (lenField w), List.length_take_of_le h⟩, stream.drop (lenField w))
  else none

/-- The command with word `w` and a buffer of zeros. -/
def zeroCommand (w : Word) : Command := ⟨w, List.replicate (lenField w) 0#8, List.length_replicate ..⟩

/-- The decoder on an instruction given as the number of its table bits: `w` below `2 ^ nbits`, all else zero, so the
input buffer is `LEN` bytes of zero. The number is the word itself (DEDUCED, log entry 8: safe). -/
def decodeTableWord (nbits w : Nat) : Option Instr :=
  match decode (zeroCommand (BitVec.ofNat 32 (w % 2 ^ nbits))) with
  | .ok i => some i
  | .error _ => none

/-- The opcode of a command (R63). -/
def opcodeOf : Instr → Byte
  | .nop _ => 0x00#8
  | .ecbEnc _ => 0x10#8
  | .ecbDec _ => 0x11#8
  | .cbcLdiv _ => 0x20#8
  | .cbcEnc _ => 0x21#8
  | .cbcDec _ => 0x22#8
  | .rc4Ksa _ => 0x30#8
  | .rc4Prga _ => 0x31#8

/-- The encoder: the command word `OP * 2^24 + LEN` and the buffer that follows it (R60, R73). -/
def encode (i : Instr) : Word × List Byte :=
  (BitVec.ofNat 32 ((opcodeOf i).toNat * 2 ^ 24 + i.len), i.input)

end Sys2Proof
end

