-- ==== Sys2Proof/Machine/State.lean ====
section
/-! DEFINITION. The state of the machine as plain data: the registers of R20, and beside them the model's own fields,
which stand for the two other agents of R6 (what the host has delivered and been answered, and the calls the block
transform has received). The ways a step could stop, and the state after reset (R35). -/

namespace Sys2Proof.Machine

/-- What reaches the CORE from outside, in the order it arrives: commands through the one command port (R7, R48), and
reset, the only asynchronous event (R146), which arrives between commands (R163). -/
inductive HostEvent where
  | command (c : Command)
  | reset
  deriving DecidableEq, Repr

/-- The answer to one command: the response word (R138) and the output buffer `OUT` that follows it (R46). -/
structure Response where
  word : Word
  out : List Byte
  deriving DecidableEq, Repr

/-- One request to the block transform BT (R6): encrypt or decrypt one block. -/
inductive BtCall where
  | enc (u : List Byte)
  | dec (u : List Byte)
  deriving DecidableEq, Repr

/-- The RC4 context: the permutation array `S` and the counters `I`, `J` (R20, R22, R23). -/
structure Rc4Ctx where
  s : Vector Byte 256
  i : Byte
  j : Byte
  deriving DecidableEq, Repr

/-- The state at a command boundary. `cv`, `rc4` and `status` are the whole architectural state (R20); the four fields
after them are the model's own (DESIGN CHOICE, log entries 4 and 6). -/
structure State where
  /-- `CV`, the CBC chaining value, `B` bytes (R21, R30). -/
  cv : List Byte
  /-- `S`, `I` and `J` (R22, R23). -/
  rc4 : Rc4Ctx
  /-- `STATUS`: bit 0 `CBC_VALID`, bit 1 `RC4_VALID`, bits 7:2 reserved (R25). -/
  status : Byte
  /-- What the host has delivered and the CORE has not taken yet, first to come first (R48, R71). -/
  port : List HostEvent
  /-- The responses delivered so far, oldest first: the observable result of the run (R71). -/
  responses : List Response
  /-- The calls made of the block transform so far, oldest first (R49). -/
  calls : List BtCall
  /-- How many free call orders `CBC_DEC` has drawn (R49, U4). -/
  orderDraws : Nat
  deriving DecidableEq, Repr

/-- The faults of the machine: none. Every error of the CORE is a response word, after which it goes on (R17, R130,
R140), so no step of this machine ends in a fault. -/
inductive Fault where
  deriving DecidableEq, Repr

/-- The refusals of the machine. -/
inductive Refusal where
  /-- An instruction without a meaning, named as the opcode table names it. No arm of `exec` raises it; it would be
  safe, since a refused step proves nothing. -/
  | notModelled (mnemonic : String)
  deriving DecidableEq, Repr

/-- The machine right after reset (R35): `STATUS = 0x00`. The spec gives `CV`, `S`, `I` and `J` no value (R26); they
hold the free values of `Config` (DESIGN CHOICE, log entry 1: unsafe), which nothing reads while the valid flags are 0. Nothing is delivered and nothing
runs until the host sends a command (R160). -/
def State.reset : State where
  cv := Config.resetCv.toList
  rc4 := ⟨Config.resetS, Config.resetI, Config.resetJ⟩
  status := 0x00#8
  port := []
  responses := []
  calls := []
  orderDraws := 0

end Sys2Proof.Machine
end

