-- ==== Sys2Proof/Machine/Flags.lean ====
section
/-! DEFINITION. The `STATUS` register: its two valid flags, the only flags of the CORE (R25, R27), how they read and
which commands set them. -/

namespace Sys2Proof.Machine

/-- `CBC_VALID`, bit 0 of `STATUS` (R25). -/
def cbcValid (s : State) : Bool := s.status.getLsbD 0

/-- `RC4_VALID`, bit 1 of `STATUS` (R25). -/
def rc4Valid (s : State) : Bool := s.status.getLsbD 1

/-- The value `STATUS` reads as: bits 7:2 are reserved and always read 0 (R25). DEDUCED, log entry 12: safe. -/
def readStatus (s : State) : Byte := s.status &&& 0x03#8

/-- `STATUS.CBC_VALID <- 1` (R91). -/
def setCbcValid (s : State) : State := { s with status := s.status ||| 0x01#8 }

/-- `STATUS.RC4_VALID <- 1` (R106). -/
def setRc4Valid (s : State) : State := { s with status := s.status ||| 0x02#8 }

end Sys2Proof.Machine
end

