-- ==== Sys2Proof/Machine/Operands.lean ====
section
/-! DEFINITION. Reading a command's input buffer (R14, R40, R44), its blocks (R12), the arithmetic on bytes and blocks
(R13), and the two functions of the block transform on blocks written as byte lists (R9). -/

namespace Sys2Proof.Machine

/-- `add8`: addition modulo 256, without carry or overflow (R13). -/
def add8 (a b : Byte) : Byte := a + b

/-- `MemRead(a, n)`: the bytes `IN[a ..< a+n]` of the input buffer (R14). -/
def memRead (input : List Byte) (a n : Nat) : List Byte := (input.drop a).take n

/-- `N = |X| / B`, the block count of a buffer (R12). -/
def blockCount (b : Nat) (x : List Byte) : Nat := x.length / b

/-- `blk(X, k)`: bytes `k*B` to `k*B + B - 1` of a buffer (R12, R42). -/
def blk (b : Nat) (x : List Byte) (k : Nat) : List Byte := memRead x (k * b) b

/-- The blocks of a buffer in increasing order of position (R12). -/
def blocks (b : Nat) (x : List Byte) : List (List Byte) := (List.range (blockCount b x)).map (blk b x)

/-- `xorB(u, v)` on two `b`-byte blocks: the block `w` with `w[t] = u[t] xor v[t]` for every `t < b` (R13). A list
of another length is cut or filled up with zeros (DESIGN CHOICE, log entry 11: safe). -/
def xorB (b : Nat) (u v : List Byte) : List Byte := List.ofFn fun t : Fin b => u.getD t.val 0#8 ^^^ v.getD t.val 0#8

/-- The byte list `u` as a block of `n` bytes. Every block the commands form has exactly `n` bytes.
DESIGN CHOICE, log entry 11: safe. -/
def toBlock (n : Nat) (u : List Byte) : Vector Byte n := Vector.ofFn fun t => u.getD t.val 0#8

/-- `E(u)`: the transform's `encryptBlock` (R9). -/
def encBlock (bt : BlockTransform) (u : List Byte) : List Byte := (bt.perm (toBlock bt.size u)).toList

/-- `D(u)`: the transform's `decryptBlock`, the inverse of `E` (R9). -/
def decBlock (bt : BlockTransform) (u : List Byte) : List Byte := (bt.perm.symm (toBlock bt.size u)).toList

end Sys2Proof.Machine
end

