-- ==== Sys2Proof/Machine/Ops.lean ====
section
/-! DEFINITION. The operations the commands share: answering a command (R138), ending it in an error (R130, R140), the
checks made before anything is done (R66 steps 2 and 3), running a command that passed them (R66 steps 4 and 5),
recording the calls of the block transform, taking the next event from the host, and reset (R160). There is no return
from an error: the CORE keeps nothing of it, and the next command runs as always (R141). -/

namespace Sys2Proof.Machine

/-- The errors a command can end with (R132). -/
inductive CmdError where
  /-- `ERR_ILLEGAL` (R133). -/
  | illegal
  /-- `ERR_NOCTX` (R134). -/
  | noCtx
  /-- `ERR_KEYSIZE` (R135). -/
  | keySize
  /-- `ERR_LEN` with the remainder `LEN mod B` (R136). -/
  | misaligned (rem : Nat)
  /-- `ERR_IVLEN` (R137). -/
  | ivLen
  deriving DecidableEq, Repr

/-- The `CODE` of `OK` (R132). -/
def codeOk : Byte := 0x00#8

/-- The `CODE` of an error (R132). -/
def errCode : CmdError → Byte
  | .illegal => 0x01#8
  | .noCtx => 0x02#8
  | .keySize => 0x03#8
  | .misaligned _ => 0x04#8
  | .ivLen => 0x05#8

/-- The `REM` field of an error: the remainder for `ERR_LEN`, else 0 (R132). -/
def errRem : CmdError → Byte
  | .misaligned r => BitVec.ofNat 8 r
  | _ => 0x00#8

/-- The response word: `CODE` 31:24, `BLK` 23:16, `REM` 15:8, `STAT` 7:0 (R138). -/
def responseWord (code blkSize rem stat : Byte) : Word := code ++ blkSize ++ rem ++ stat

/-- `BLKSZ`, the 8-bit read-only view of `B` (R25). -/
def blkSz (bt : BlockTransform) : Byte := BitVec.ofNat 8 bt.size

/-- Answer the command: append its one response word, with `STATUS` as it now is, and its output buffer (R138). -/
def answer (bt : BlockTransform) (code rem : Byte) (out : List Byte) (s : State) : State :=
  { s with responses := s.responses ++ [⟨responseWord code (blkSz bt) rem (readStatus s), out⟩] }

/-- The command completes: response `OK` with the output buffer (R66 step 5). -/
def respondOk (bt : BlockTransform) (out : List Byte) (s : State) : State := answer bt codeOk 0x00#8 out s

/-- `raise Err(code, rem)`: what taking an error is. Nothing is written and nothing is output; the whole of the error
is in the response word (R14, R130, R140). It is a next state and no fault (DEDUCED, log entry 13: safe). -/
def raiseErr (bt : BlockTransform) (e : CmdError) (s : State) : State := answer bt (errCode e) (errRem e) [] s

/-- The context check of `CBC_ENC` and `CBC_DEC` (R66 step 2, R134). -/
def needCbc (s : State) : Option CmdError := if cbcValid s then none else some .noCtx

/-- The context check of `RC4_PRGA` (R66 step 2, R134). -/
def needRc4 (s : State) : Option CmdError := if rc4Valid s then none else some .noCtx

/-- The length check of the four block-mode commands (R66 step 3, R43, R136). -/
def needWholeBlocks (bt : BlockTransform) (len : Nat) : Option CmdError :=
  if len % bt.size = 0 then none else some (.misaligned (len % bt.size))

/-- The length check of `CBC_LDIV` (R66 step 3, R137). -/
def needOneBlock (bt : BlockTransform) (len : Nat) : Option CmdError :=
  if len = bt.size then none else some .ivLen

/-- The length check of `RC4_KSA`: 5 to 32 bytes (R66 step 3, R135). -/
def needKeyLength (len : Nat) : Option CmdError :=
  if len < 5 ∨ 32 < len then some .keySize else none

/-- Two checks in priority order: the earlier error is the one reported (R139). -/
def firstError (a b : Option CmdError) : Option CmdError :=
  match a with
  | some e => some e
  | none => b

/-- Run a command: the outcome of its checks decides between the error and its effect, whose output is delivered with
`OK` (R66 steps 2 to 5). -/
def runChecked (bt : BlockTransform) (check : Option CmdError) (effect : State → State × List Byte) (s : State) :
    State :=
  match check with
  | some e => raiseErr bt e s
  | none => respondOk bt (effect s).2 (effect s).1

/-- `CV <- v`: the register keeps a copy of its own (R21, R165). -/
def writeCv (v : List Byte) (s : State) : State := { s with cv := v }

/-- Write `S`, `I` and `J` (R22, R23). -/
def writeRc4 (c : Rc4Ctx) (s : State) : State := { s with rc4 := c }

/-- Record calls of the block transform in the order they are made. -/
def recordCalls (cs : List BtCall) (s : State) : State := { s with calls := s.calls ++ cs }

/-- Record the `D` calls of a `CBC_DEC` over the blocks `cs`: each block once, in an order the spec leaves open
(R49, U4), drawn anew each time (DESIGN CHOICE, log entry 4). -/
def recordDecCalls (cs : List (List Byte)) (s : State) : State :=
  { recordCalls (List.ofFn fun k : Fin cs.length => .dec cs[Config.decOrder s.orderDraws cs.length k]) s with
    orderDraws := s.orderDraws + 1 }

/-- An illegal command: its buffer is dropped, nothing changes, the answer is `ERR_ILLEGAL` (R65, R133). -/
def answerIllegal (s : State) : State := raiseErr Config.bt .illegal s

/-- Reset (R160): the registers are put into the state of R35. What the host has still to deliver and what it has
already been given are not the CORE's, and stay (DEDUCED, log entry 15: safe). -/
def applyReset (s : State) : State :=
  { s with cv := State.reset.cv, rc4 := State.reset.rc4, status := State.reset.status }

/-- The next event from the host, in order of delivery, and the state in which it has been taken from the port
(R48). -/
def takeEvent (s : State) : Option (HostEvent × State) :=
  match s.port with
  | [] => none
  | e :: rest => some (e, { s with port := rest })

/-- Put an event in front of everything the host has still to deliver. -/
def deliverNext (e : HostEvent) (s : State) : State := { s with port := e :: s.port }

end Sys2Proof.Machine
end

