-- ==== Sys2Proof/Machine/Cbc.lean ====
section
/-! DEFINITION. The CBC unit: loading the IV, and encryption and decryption chained through `CV` (R90 to R96). -/

namespace Sys2Proof.Machine

/-- The ciphertext blocks of the plaintext blocks `ps` chained from `c`: each plaintext block is XORed with the
chaining value, encrypted, and becomes the next chaining value (R92). -/
def cbcEncBlocks (bt : BlockTransform) (c : List Byte) : List (List Byte) → List (List Byte)
  | [] => []
  | p :: ps => encBlock bt (xorB bt.size p c) :: cbcEncBlocks bt (encBlock bt (xorB bt.size p c)) ps

/-- The plaintext blocks of the ciphertext blocks chained from `prev`: each is `D` of the block XORed with the
ciphertext block before it, or with `prev` for block 0 (R93). -/
def cbcDecBlocks (bt : BlockTransform) (prev : List Byte) : List (List Byte) → List (List Byte)
  | [] => []
  | c :: cs => xorB bt.size (decBlock bt c) prev :: cbcDecBlocks bt c cs

/-- What `E` is called with when `ps` is encrypted to `cs` from the chaining value `c`: `xorB(P_k, C_(k-1))`, in
increasing order (R92). -/
def cbcEncCalls (bt : BlockTransform) (c : List Byte) (ps cs : List (List Byte)) : List BtCall :=
  (List.zipWith (xorB bt.size) ps (c :: cs)).map .enc

/-- `CBC_LDIV` after its checks: the IV becomes `CV` and the context is valid (R91). -/
def cbcLdivEffect (bt : BlockTransform) (input : List Byte) (s : State) : State × List Byte :=
  (setCbcValid (writeCv (memRead input 0 bt.size) s), [])

/-- `CBC_ENC` after its checks (R92): `CV` ends as the last ciphertext block, or as it was for no blocks. -/
def cbcEncEffect (bt : BlockTransform) (input : List Byte) (s : State) : State × List Byte :=
  let ps := blocks bt.size input
  let cs := cbcEncBlocks bt s.cv ps
  (writeCv (cs.getLastD s.cv) (recordCalls (cbcEncCalls bt s.cv ps cs) s), cs.flatten)

/-- `CBC_DEC` after its checks (R93): `CV` ends as the last block of the input, or as it was for no blocks
(the spec's D15; log entry 5: unsafe). -/
def cbcDecEffect (bt : BlockTransform) (input : List Byte) (s : State) : State × List Byte :=
  let cs := blocks bt.size input
  (writeCv (cs.getLastD s.cv) (recordDecCalls cs s), (cbcDecBlocks bt s.cv cs).flatten)

/-- `CBC_LDIV` under a configuration (R91). -/
def cbcLdivOn (bt : BlockTransform) (input : List Byte) (s : State) : State :=
  runChecked bt (needOneBlock bt input.length) (cbcLdivEffect bt input) s

/-- `CBC_ENC` under a configuration: the context is checked before the length (R92, R139). -/
def cbcEncOn (bt : BlockTransform) (input : List Byte) (s : State) : State :=
  runChecked bt (firstError (needCbc s) (needWholeBlocks bt input.length)) (cbcEncEffect bt input) s

/-- `CBC_DEC` under a configuration: the context is checked before the length (R93, R139). -/
def cbcDecOn (bt : BlockTransform) (input : List Byte) (s : State) : State :=
  runChecked bt (firstError (needCbc s) (needWholeBlocks bt input.length)) (cbcDecEffect bt input) s

/-- `CBC_LDIV` (R91). -/
def execCbcLdiv (input : List Byte) (s : State) : Host.Outcome State Fault Refusal :=
  .next (cbcLdivOn Config.bt input s)

/-- `CBC_ENC` (R92). -/
def execCbcEnc (input : List Byte) (s : State) : Host.Outcome State Fault Refusal := .next (cbcEncOn Config.bt input s)

/-- `CBC_DEC` (R93). -/
def execCbcDec (input : List Byte) (s : State) : Host.Outcome State Fault Refusal := .next (cbcDecOn Config.bt input s)

end Sys2Proof.Machine
end

