-- ==== Sys2Proof/Machine/Ecb.lean ====
section
/-! DEFINITION. The ECB unit: each block of the buffer through the transform by itself, in increasing order; no state
(R80 to R84). -/

namespace Sys2Proof.Machine

/-- `ECB_ENC` after its checks: `E` of each block, at the same position (R81). -/
def ecbEncEffect (bt : BlockTransform) (input : List Byte) (s : State) : State × List Byte :=
  (recordCalls ((blocks bt.size input).map .enc) s, ((blocks bt.size input).map (encBlock bt)).flatten)

/-- `ECB_DEC` after its checks: `D` of each block, at the same position (R82). -/
def ecbDecEffect (bt : BlockTransform) (input : List Byte) (s : State) : State × List Byte :=
  (recordCalls ((blocks bt.size input).map .dec) s, ((blocks bt.size input).map (decBlock bt)).flatten)

/-- `ECB_ENC` under a configuration (R81). -/
def ecbEncOn (bt : BlockTransform) (input : List Byte) (s : State) : State :=
  runChecked bt (needWholeBlocks bt input.length) (ecbEncEffect bt input) s

/-- `ECB_DEC` under a configuration (R82). -/
def ecbDecOn (bt : BlockTransform) (input : List Byte) (s : State) : State :=
  runChecked bt (needWholeBlocks bt input.length) (ecbDecEffect bt input) s

/-- `ECB_ENC` (R81). -/
def execEcbEnc (input : List Byte) (s : State) : Host.Outcome State Fault Refusal := .next (ecbEncOn Config.bt input s)

/-- `ECB_DEC` (R82). -/
def execEcbDec (input : List Byte) (s : State) : Host.Outcome State Fault Refusal := .next (ecbDecOn Config.bt input s)

end Sys2Proof.Machine
end

