-- ==== Sys2Proof/Machine/Rc4.lean ====
section
/-! DEFINITION. The RC4 unit: key scheduling (R106, R107) and keystream generation (R108). Every index into `S` is a
byte, so it is in range (R22). -/

namespace Sys2Proof.Machine

/-- `S[a]` (R22). -/
def sAt (s : Vector Byte 256) (a : Byte) : Byte := s[a.toNat]'a.isLt

/-- `swap(S[a], S[b])`: nothing changes when `a = b` (R14). -/
def sSwap (s : Vector Byte 256) (a b : Byte) : Vector Byte 256 := s.swap a.toNat b.toNat a.isLt b.isLt

/-- The identity permutation, `S[n] = n` (R106). -/
def sIdentity : Vector Byte 256 := Vector.ofFn fun n => BitVec.ofNat 8 n.val

/-- `key[n mod keyLength]` (R106). -/
def keyByte (key : List Byte) (n : Nat) : Byte := key.getD (n % key.length) 0#8

/-- Step `n` of the shuffle, on `S` and the scratch index `kj` (R106). -/
def ksaStep (key : List Byte) (c : Vector Byte 256 × Byte) (n : Nat) : Vector Byte 256 × Byte :=
  let at_n := BitVec.ofNat 8 n
  let kj := add8 (add8 c.2 (sAt c.1 at_n)) (keyByte key n)
  (sSwap c.1 at_n kj, kj)

/-- The 256 steps of the shuffle from the identity, with `kj` starting at 0 (R106, R107; the spec's D14, log
entry 17: safe). -/
def ksaShuffle (key : List Byte) : Vector Byte 256 :=
  ((List.range 256).foldl (ksaStep key) (sIdentity, 0x00#8)).1

/-- The context that key scheduling constructs: the shuffled `S`, and `I = J = 0` whatever `kj` ended at (R106). -/
def ksaContext (key : List Byte) : Rc4Ctx := ⟨ksaShuffle key, 0x00#8, 0x00#8⟩

/-- The advance of the context for one byte: `I`, then `J`, then the swap (R108). -/
def prgaAdvance (c : Rc4Ctx) : Rc4Ctx :=
  let i := add8 c.i 0x01#8
  let j := add8 c.j (sAt c.s i)
  ⟨sSwap c.s i j, i, j⟩

/-- The keystream byte of an advanced context, `K = S[add8(S[I], S[J])]`, read after the swap (R108). -/
def prgaByte (c : Rc4Ctx) : Byte := sAt c.s (add8 (sAt c.s c.i) (sAt c.s c.j))

/-- Generation over a buffer: one advance and one keystream byte for each input byte (R108). -/
def prgaRun (c : Rc4Ctx) : List Byte → Rc4Ctx × List Byte
  | [] => (c, [])
  | x :: xs =>
    let c' := prgaAdvance c
    let rest := prgaRun c' xs
    (rest.1, (x ^^^ prgaByte c') :: rest.2)

/-- `RC4_KSA` after its checks (R106). -/
def rc4KsaEffect (input : List Byte) (s : State) : State × List Byte :=
  (setRc4Valid (writeRc4 (ksaContext input) s), [])

/-- `RC4_PRGA` after its checks (R108). -/
def rc4PrgaEffect (input : List Byte) (s : State) : State × List Byte :=
  let r := prgaRun s.rc4 input
  (writeRc4 r.1 s, r.2)

/-- `RC4_KSA` under a configuration, which only its response shows (R106). -/
def rc4KsaOn (bt : BlockTransform) (input : List Byte) (s : State) : State :=
  runChecked bt (needKeyLength input.length) (rc4KsaEffect input) s

/-- `RC4_PRGA` under a configuration, which only its response shows (R108). -/
def rc4PrgaOn (bt : BlockTransform) (input : List Byte) (s : State) : State :=
  runChecked bt (needRc4 s) (rc4PrgaEffect input) s

/-- `RC4_KSA` (R106). -/
def execRc4Ksa (input : List Byte) (s : State) : Host.Outcome State Fault Refusal := .next (rc4KsaOn Config.bt input s)

/-- `RC4_PRGA` (R108). -/
def execRc4Prga (input : List Byte) (s : State) : Host.Outcome State Fault Refusal :=
  .next (rc4PrgaOn Config.bt input s)

end Sys2Proof.Machine
end

