-- ==== Sys2Proof/Machine/System.lean ====
section
/-! DEFINITION. The system command `NOP` (R120). -/

namespace Sys2Proof.Machine

/-- `NOP` under a configuration: no check, no effect, no output (R120). -/
def nopOn (bt : BlockTransform) (_input : List Byte) (s : State) : State :=
  runChecked bt none (fun s => (s, [])) s

/-- `NOP` (R120). -/
def execNop (input : List Byte) (s : State) : Host.Outcome State Fault Refusal := .next (nopOn Config.bt input s)

end Sys2Proof.Machine
end

