-- ==== Sys2Proof/Machine/Dispatch.lean ====
section
/-! DEFINITION. `exec`: one arm for each command (R63), each a direct call of its meaning. -/

namespace Sys2Proof.Machine

def exec (i : Instr) (s : State) : Host.Outcome State Fault Refusal :=
  match i with
  | .nop input => Sys2Proof.Machine.execNop input s
  | .ecbEnc input => Sys2Proof.Machine.execEcbEnc input s
  | .ecbDec input => Sys2Proof.Machine.execEcbDec input s
  | .cbcLdiv input => Sys2Proof.Machine.execCbcLdiv input s
  | .cbcEnc input => Sys2Proof.Machine.execCbcEnc input s
  | .cbcDec input => Sys2Proof.Machine.execCbcDec input s
  | .rc4Ksa input => Sys2Proof.Machine.execRc4Ksa input s
  | .rc4Prga input => Sys2Proof.Machine.execRc4Prga input s

end Sys2Proof.Machine
end

