-- ==== Sys2Proof/Machine/Step.lean ====
section
/-! DEFINITION. One step of the CORE: it takes the next event the host has delivered, and executes a whole command
(R15, R47, R48) or is reset (R160); with nothing delivered it is idle and keeps its state (R149; DEDUCED, log entry 10:
safe). -/

namespace Sys2Proof.Machine

/-- One step. A command that does not decode is answered with `ERR_ILLEGAL` and changes nothing (R65). -/
def step (s : State) : Host.Outcome State Fault Refusal :=
  match takeEvent s with
  | none => .next s
  | some (.reset, s') => .next (applyReset s')
  | some (.command c, s') =>
    match decode c with
    | .ok i => exec i s'
    | .error _ => .next (answerIllegal s')

/-- `s` with the command of the number `w` (its bits above `nbits` zero, so its buffer `LEN` bytes of zero) delivered
by the host as the next thing the CORE takes (DESIGN CHOICE, log entry 7: safe). -/
def State.withFetchWord (s : State) (nbits w : Nat) : State :=
  deliverNext (.command (zeroCommand (BitVec.ofNat 32 (w % 2 ^ nbits)))) s

end Sys2Proof.Machine
end

