-- ==== Sys2Proof/Machine/Listing.lean ====
section
/-! DEFINITION. The notation of the spec's programs (R73) and its pseudo-instructions (R74): what a line stands for.
It adds no behaviour: a line is the commands it expands to. -/

namespace Sys2Proof.Machine

/-- The mnemonics of R63. -/
inductive Mnemonic where
  | nop | ecbEnc | ecbDec | cbcLdiv | cbcEnc | cbcDec | rc4Ksa | rc4Prga
  deriving DecidableEq, Repr

/-- The forms in which a line writes its input buffer (R73). -/
inductive BufferText where
  /-- A hexadecimal byte string, as the bytes it denotes. -/
  | hex (bytes : List Byte)
  /-- `zeros(n)`. -/
  | zeros (n : Nat)
  /-- A double-quoted ASCII string, one byte for each character. -/
  | ascii (chars : List Char)
  /-- Nothing: the empty buffer. -/
  | nothing
  deriving DecidableEq, Repr

/-- One line of a program (R73, R74). -/
inductive Line where
  | command (m : Mnemonic) (x : BufferText)
  | rc4Keystream (n : Nat)
  | rc4Drop (n : Nat)
  | cbcDecPrefixed (x : BufferText)
  /-- `RESET`: no command, a hardware reset at that point. -/
  | reset
  deriving DecidableEq, Repr

/-- The bytes of a written buffer (R73). -/
def bufferBytes : BufferText → List Byte
  | .hex bytes => bytes
  | .zeros n => List.replicate n 0#8
  | .ascii chars => chars.map fun c => BitVec.ofNat 8 c.toNat
  | .nothing => []

/-- The command of a mnemonic and a buffer; `LEN` is the buffer's length and is never written (R73). -/
def commandText : Mnemonic → List Byte → Instr
  | .nop, x => .nop x
  | .ecbEnc, x => .ecbEnc x
  | .ecbDec, x => .ecbDec x
  | .cbcLdiv, x => .cbcLdiv x
  | .cbcEnc, x => .cbcEnc x
  | .cbcDec, x => .cbcDec x
  | .rc4Ksa, x => .rc4Ksa x
  | .rc4Prga, x => .rc4Prga x

/-- `RC4_PRGA zeros(n)`, as several commands when `n` is more than one can carry (R74, R51). Where it
is cut is a DESIGN CHOICE, log entry 16: safe. -/
def prgaZeros (n : Nat) : List Instr :=
  List.replicate ((n - 1) / maxLen) (.rc4Prga (List.replicate maxLen 0#8)) ++
    [.rc4Prga (List.replicate (n - (n - 1) / maxLen * maxLen) 0#8)]

/-- The commands a line expands to, under the block size `b` (R73, R74). `RC4_DROP` is `RC4_KEYSTREAM` whose output the
host throws away. `CBC_DEC_PREFIXED X` is the load of the first block and the decryption of the rest. -/
def lineCommands (b : Nat) : Line → List Instr
  | .command m x => [commandText m (bufferBytes x)]
  | .rc4Keystream n => prgaZeros n
  | .rc4Drop n => prgaZeros n
  | .cbcDecPrefixed x => [.cbcLdiv ((bufferBytes x).take b), .cbcDec ((bufferBytes x).drop b)]
  | .reset => []

/-- The delivery of a command, where it can be encoded (R60). -/
def deliveryOf (i : Instr) : Option HostEvent :=
  match commandOf (encode i).1 (encode i).2 with
  | .ok c => some (.command c)
  | .error _ => none

/-- What the host delivers for a line (R73). -/
def lineEvents (b : Nat) : Line → Option (List HostEvent)
  | .reset => some [.reset]
  | l => (lineCommands b l).mapM deliveryOf

end Sys2Proof.Machine
end

