-- ==== Sys2Proof/Safety.lean ====
section
/-! DEFINITION. The terms claims about the CORE are made in: the response word written as the number of R138, what a
command that answers leaves, the fields of a response, the traces of R106 and R108 written as relations, the
invariants of the state (R21, R25, R29, R30), and runs. -/

namespace Sys2Proof.Machine

/-- `STATUS` as the number it reads as: bit 0 `CBC_VALID`, bit 1 `RC4_VALID`, bits 7:2 zero (R25). -/
def statusNumber (s : State) : Nat := (if cbcValid s then 1 else 0) + (if rc4Valid s then 2 else 0)

/-- The response word as the number of R138: `CODE * 2^24 + B * 2^16 + REM * 2^8 + STATUS`. -/
def rspNumber (code rem : Nat) (s : State) : Nat :=
  code * 2 ^ 24 + Config.blockSize * 2 ^ 16 + rem * 2 ^ 8 + statusNumber s

/-- `s` after one response with this code, remainder and output, and nothing else changed. -/
def answered (code rem : Nat) (out : List Byte) (s : State) : State :=
  { s with responses := s.responses ++ [⟨BitVec.ofNat 32 (rspNumber code rem s), out⟩] }

/-- `CODE`, bits 31:24 of a response (R138). -/
def rspCode (r : Response) : Nat := (r.word.extractLsb' 24 8).toNat

/-- `BLK`, bits 23:16 of a response (R138). -/
def rspBlk (r : Response) : Nat := (r.word.extractLsb' 16 8).toNat

/-- `REM`, bits 15:8 of a response (R138). -/
def rspRem (r : Response) : Nat := (r.word.extractLsb' 8 8).toNat

/-- `STAT`, bits 7:0 of a response (R138). -/
def rspStat (r : Response) : Nat := (r.word.extractLsb' 0 8).toNat

/-- The command `i` executed in `s` leaves `t` and is answered by the one response `r`. -/
def Runs (i : Instr) (s t : State) (r : Response) : Prop :=
  exec i s = .next t ∧ t.responses = s.responses ++ [r]

/-- The registers of R20: `CV`; `S`, `I`, `J`; `STATUS`. -/
def registers (s : State) : List Byte × Rc4Ctx × Byte := (s.cv, s.rc4, s.status)

/-- `S'` is `S` with the entries `a` and `b` exchanged (R14). -/
def Swapped (S S' : Vector Byte 256) (a b : Byte) : Prop :=
  sAt S' a = sAt S b ∧ sAt S' b = sAt S a ∧ ∀ x, x ≠ a → x ≠ b → sAt S' x = sAt S x

/-- The arrays `S 0, ..., S 256` and scratch indices `kj 0, ..., kj 256` of a key schedule (R106, R107). -/
def KsaTrace (key : List Byte) (S : Nat → Vector Byte 256) (kj : Nat → Byte) : Prop :=
  (∀ x, sAt (S 0) x = x) ∧ kj 0 = 0#8 ∧
  ∀ n, n < 256 →
    kj (n + 1) = kj n + sAt (S n) (BitVec.ofNat 8 n) + key.getD (n % key.length) 0#8 ∧
    Swapped (S n) (S (n + 1)) (BitVec.ofNat 8 n) (kj (n + 1))

/-- The contexts `c 0, ..., c len` and keystream bytes `K 0, ..., K (len - 1)` of a generation (R108). -/
def PrgaTrace (len : Nat) (c : Nat → Rc4Ctx) (K : Nat → Byte) : Prop :=
  ∀ t, t < len →
    (c (t + 1)).i = (c t).i + 1#8 ∧
    (c (t + 1)).j = (c t).j + sAt (c t).s (c (t + 1)).i ∧
    Swapped (c t).s (c (t + 1)).s (c (t + 1)).i (c (t + 1)).j ∧
    K t = sAt (c (t + 1)).s (sAt (c (t + 1)).s (c (t + 1)).i + sAt (c (t + 1)).s (c (t + 1)).j)

/-- The output of `CBC_DEC` in the order of the reference, from the last block backward (R94): `k` blocks are still to be
recovered and `out` holds what has been written above them. The block at position 0 is XORed with the `CV` of before. -/
def cbcDecBackward (bt : BlockTransform) (cv input : List Byte) : Nat → List Byte → List Byte
  | 0, out => out
  | k + 1, out =>
    cbcDecBackward bt cv input k
      (xorB bt.size (decBlock bt (blk bt.size input k)) (if k = 0 then cv else blk bt.size input (k - 1)) ++ out)

/-- The error of a command as the checks of R66 give it, in their order, as `(CODE, REM)`; `(0, 0)` where all pass. -/
def checksOf (i : Instr) (s : State) : Nat × Nat :=
  match i with
  | .nop _ => (0, 0)
  | .ecbEnc x => if x.length % Config.blockSize ≠ 0 then (4, x.length % Config.blockSize) else (0, 0)
  | .ecbDec x => if x.length % Config.blockSize ≠ 0 then (4, x.length % Config.blockSize) else (0, 0)
  | .cbcLdiv x => if x.length ≠ Config.blockSize then (5, 0) else (0, 0)
  | .cbcEnc x =>
    if cbcValid s = false then (2, 0)
    else if x.length % Config.blockSize ≠ 0 then (4, x.length % Config.blockSize) else (0, 0)
  | .cbcDec x =>
    if cbcValid s = false then (2, 0)
    else if x.length % Config.blockSize ≠ 0 then (4, x.length % Config.blockSize) else (0, 0)
  | .rc4Ksa x => if x.length < 5 ∨ x.length > 32 then (3, 0) else (0, 0)
  | .rc4Prga _ => if rc4Valid s = false then (2, 0) else (0, 0)

/-- The length of the output of a command that succeeds (R46). -/
def okOutputLength : Instr → Nat
  | .nop _ => 0
  | .ecbEnc x => x.length
  | .ecbDec x => x.length
  | .cbcLdiv _ => 0
  | .cbcEnc x => x.length
  | .cbcDec x => x.length
  | .rc4Ksa _ => 0
  | .rc4Prga x => x.length

/-- How often a command that succeeds calls `E` and how often `D` (R28, R49). -/
def okTransformCalls : Instr → Nat × Nat
  | .nop _ => (0, 0)
  | .ecbEnc x => (x.length / Config.blockSize, 0)
  | .ecbDec x => (0, x.length / Config.blockSize)
  | .cbcLdiv _ => (0, 0)
  | .cbcEnc x => (x.length / Config.blockSize, 0)
  | .cbcDec x => (0, x.length / Config.blockSize)
  | .rc4Ksa _ => (0, 0)
  | .rc4Prga _ => (0, 0)

/-- `S` is a permutation of `0 .. 255`: every value occurs exactly once (R29). -/
abbrev IsPermutation (S : Vector Byte 256) : Prop := ∀ v : Byte, S.toList.count v = 1

/-- The invariants of the registers: `CV` holds exactly `B` bytes while `CBC_VALID = 1` (R30), `S` is a permutation
while `RC4_VALID = 1` (R29), and bits 7:2 of `STATUS` are 0 (R25). -/
structure RegistersOk (s : State) : Prop where
  cv_length : cbcValid s = true → s.cv.length = Config.blockSize
  s_permutation : rc4Valid s = true → IsPermutation s.rc4.s
  reserved_zero : s.status &&& 0xFC#8 = 0#8

/-- The two states differ at most in registers that hold no value: `CV` while `CBC_VALID = 0`, and `S`, `I`, `J` while
`RC4_VALID = 0` (R26). -/
structure SameButUnwritten (s t : State) : Prop where
  status : s.status = t.status
  port : s.port = t.port
  responses : s.responses = t.responses
  calls : s.calls = t.calls
  orderDraws : s.orderDraws = t.orderDraws
  cv : cbcValid s = true → s.cv = t.cv
  rc4 : rc4Valid s = true → s.rc4 = t.rc4

/-- The calls of `E` in a list of calls. -/
def encCalls (cs : List BtCall) : Nat := cs.countP fun c => match c with | .enc _ => true | .dec _ => false

/-- The calls of `D` in a list of calls. -/
def decCalls (cs : List BtCall) : Nat := cs.countP fun c => match c with | .enc _ => false | .dec _ => true

/-- The units of R1. -/
inductive CipherUnit where
  | ecb | cbc | rc4
  deriving DecidableEq, Repr

/-- The unit a command belongs to; `NOP` belongs to none (R63). -/
def unitOf : Instr → Option CipherUnit
  | .nop _ => none
  | .ecbEnc _ => some .ecb
  | .ecbDec _ => some .ecb
  | .cbcLdiv _ => some .cbc
  | .cbcEnc _ => some .cbc
  | .cbcDec _ => some .cbc
  | .rc4Ksa _ => some .rc4
  | .rc4Prga _ => some .rc4

/-- Execute commands one after the other: the run of R71 from `s`. A command always ends in a next state; the state is
kept where one would not. -/
def runCommands : List Instr → State → State
  | [], s => s
  | i :: is, s =>
    match exec i s with
    | .next t => runCommands is t
    | _ => s

/-- No error was answered so far: the convention R141 leaves to the history of responses. -/
def NoErrorAnswered (s : State) : Prop := ∀ r ∈ s.responses, rspCode r = 0

end Sys2Proof.Machine
end

