-- ==== Sys2Proof/Certificates/Slice0/Obligations.lean ====
section
/-! DEFINITION. The statements about the CORE, from the numbered rules of its spec. Each is about every state unless it
says otherwise. The machine has no addressable memory (R40, R41), so a frame speaks of the registers, the port, the
responses and the calls. -/

open Sys2Proof Sys2Proof.Machine

/-! ### Reset, steps and runs -/

/-- R35: after reset `STATUS` is 0, so neither context is valid. That `port`, `responses` and `calls` start empty is the
model's own choice (DESIGN CHOICE, log entry 6): they are no fields of the spec's. -/
def Obligations.ResetClearsBothValidFlags : Prop :=
  State.reset.status = 0x00#8 ∧ cbcValid State.reset = false ∧ rc4Valid State.reset = false ∧
  State.reset.port = [] ∧ State.reset.responses = [] ∧ State.reset.calls = []

/-- The invariant of R25, R29 and R30 holds right after reset. -/
def Obligations.ResetMeetsRegisterInvariant : Prop := RegistersOk State.reset

/-- R25, R29, R30: every step keeps the invariant of the registers. -/
def Obligations.StepKeepsRegisterInvariant : Prop :=
  ∀ s t : State, RegistersOk s → step s = .next t → RegistersOk t

/-- R15: a step always has an outcome and never stops the machine. -/
def Obligations.StepAlwaysAnswersNext : Prop := ∀ s : State, ∃ t, step s = .next t

/-- R15, R48: a step takes the command that is next on the port and executes the instruction it decodes to. -/
def Obligations.StepRunsDecodedCommand : Prop :=
  ∀ (s : State) (c : Command) (rest : List HostEvent) (i : Instr),
    s.port = .command c :: rest → decode c = .ok i → step s = exec i { s with port := rest }

/-- R149: with nothing delivered the CORE is idle and keeps its state. That this is a step is the model's own (DEDUCED,
log entry 10). -/
def Obligations.StepWithoutEventKeepsState : Prop := ∀ s : State, s.port = [] → step s = .next s

/-- R160: a reset clears `STATUS`. That it is answered by nothing, and that what is still to be delivered, the responses
and the calls stay, is the model's own (DEDUCED, log entry 15). -/
def Obligations.StepTakesResetEvent : Prop :=
  ∀ (s : State) (rest : List HostEvent), s.port = .reset :: rest →
    ∃ t, step s = .next t ∧ t.status = 0x00#8 ∧ cbcValid t = false ∧ rc4Valid t = false ∧ t.port = rest ∧
      t.responses = s.responses ∧ t.calls = s.calls

/-- R65, R133: a word whose `OP` is none of the eight opcodes is answered with `ERR_ILLEGAL`, whatever its `LEN` and
`STATUS` are, and changes nothing; each of the eight is executed. -/
def Obligations.IllegalOpcodeAnswersErrIllegal : Prop :=
  ∀ (s : State) (c : Command) (rest : List HostEvent), s.port = .command c :: rest →
    (opField c.word ∉ [0x00#8, 0x10#8, 0x11#8, 0x20#8, 0x21#8, 0x22#8, 0x30#8, 0x31#8] →
      step s = .next (answered 1 0 [] { s with port := rest })) ∧
    (opField c.word ∈ [0x00#8, 0x10#8, 0x11#8, 0x20#8, 0x21#8, 0x22#8, 0x30#8, 0x31#8] →
      ∃ i, i.input = c.input ∧ step s = exec i { s with port := rest })

/-- R71, R72, R138: as many steps as commands were delivered take them all and answer each with one response. -/
def Obligations.RunAnswersEveryCommand : Prop :=
  ∀ (cs : List Command) (rest : List HostEvent) (s : State), s.port = cs.map HostEvent.command ++ rest →
    ∃ t, Host.Core.run core cs.length s = .next t ∧ t.port = rest ∧
      t.responses.length = s.responses.length + cs.length

/-- R48, R71: the steps of a run execute the delivered commands one after the other, each on the state the one before
it left. -/
def Obligations.RunExecutesCommandsInOrder : Prop :=
  ∀ (cs : List Command) (is : List Instr) (rest : List HostEvent) (s : State),
    s.port = cs.map HostEvent.command ++ rest → cs.map decode = is.map Except.ok →
      Host.Core.run core cs.length s = .next { runCommands is s with port := rest }

/-! ### The command word -/

/-- R63: a word selects the row of the opcode map whose match it has under the mask `0xFF000000`, and no word selects
two; a word that selects none is illegal. -/
def Obligations.DecoderMatchesOpcodeMap : Prop :=
  ∀ c : Command,
    (decode c = .ok (.nop c.input) ↔ c.word &&& 0xFF000000#32 = 0x00000000#32) ∧
    (decode c = .ok (.ecbEnc c.input) ↔ c.word &&& 0xFF000000#32 = 0x10000000#32) ∧
    (decode c = .ok (.ecbDec c.input) ↔ c.word &&& 0xFF000000#32 = 0x11000000#32) ∧
    (decode c = .ok (.cbcLdiv c.input) ↔ c.word &&& 0xFF000000#32 = 0x20000000#32) ∧
    (decode c = .ok (.cbcEnc c.input) ↔ c.word &&& 0xFF000000#32 = 0x21000000#32) ∧
    (decode c = .ok (.cbcDec c.input) ↔ c.word &&& 0xFF000000#32 = 0x22000000#32) ∧
    (decode c = .ok (.rc4Ksa c.input) ↔ c.word &&& 0xFF000000#32 = 0x30000000#32) ∧
    (decode c = .ok (.rc4Prga c.input) ↔ c.word &&& 0xFF000000#32 = 0x31000000#32) ∧
    (decode c = .error (.illegalOpcode (opField c.word)) ↔
      c.word &&& 0xFF000000#32 ∉ [0x00000000#32, 0x10000000#32, 0x11000000#32, 0x20000000#32, 0x21000000#32,
        0x22000000#32, 0x30000000#32, 0x31000000#32])

/-- R60: `cmd = OP * 2^24 + LEN`, for every word, and for the word of every well-formed command. -/
def Obligations.CommandWordIsOpcodeAndLength : Prop :=
  (∀ w : Word, w.toNat = (opField w).toNat * 2 ^ 24 + lenField w ∧ lenField w ≤ 16777215) ∧
  ∀ i : Instr, i.WellFormed →
    (encode i).1.toNat = (opcodeOf i).toNat * 2 ^ 24 + i.len ∧
    opField (encode i).1 = opcodeOf i ∧ lenField (encode i).1 = i.len ∧ (encode i).2 = i.input

/-- Every well-formed command is decoded back from its encoding, with every byte of its buffer (R60, R63, R73). -/
def Obligations.DecodeUndoesEncode : Prop :=
  ∀ i : Instr, i.WellFormed → decodeParts (encode i).1 (encode i).2 = .ok i

/-- Every word and buffer that decode are the encoding of what they decode to, and that is well formed (R60, R63). -/
def Obligations.EncodeUndoesDecode : Prop :=
  ∀ (w : Word) (x : List Byte) (i : Instr), decodeParts w x = .ok i → encode i = (w, x) ∧ i.WellFormed

/-- R62, R130: the extent of a command is told from its word alone, legal or not: `LEN` bytes are taken, and the rest
of the stream is left. -/
def Obligations.StreamGivesUpExactlyLenBytes : Prop :=
  ∀ (w : Word) (x rest : List Byte),
    (x.length = lenField w →
      ∃ c, takeCommand w (x ++ rest) = some (c, rest) ∧ c.word = w ∧ c.input = x ∧ commandExtent w = 4 + x.length) ∧
    (x.length < lenField w → takeCommand w x = none)

/-- Words written out from R60 and R63, one for each unit and one illegal, decode to what they stand for. -/
def Obligations.OpcodeMapWordsDecode : Prop :=
  decodeParts 0x00000002#32 [0xaa#8, 0xbb#8] = .ok (.nop [0xaa#8, 0xbb#8]) ∧
  decodeParts 0x11000001#32 [0x12#8] = .ok (.ecbDec [0x12#8]) ∧
  decodeParts 0x20000003#32 [0xa0#8, 0xa1#8, 0xa2#8] = .ok (.cbcLdiv [0xa0#8, 0xa1#8, 0xa2#8]) ∧
  decodeParts 0x30000005#32 [1#8, 2#8, 3#8, 4#8, 5#8] = .ok (.rc4Ksa [1#8, 2#8, 3#8, 4#8, 5#8]) ∧
  decodeParts 0x12000000#32 [] = .error (.illegalOpcode 0x12#8)

/-! ### The system command and the ECB unit -/

/-- R120: `NOP` drops its buffer, changes nothing and answers `OK` with `B` and `STATUS`. -/
def Obligations.NopAnswersStatus : Prop :=
  ∀ (s : State) (x : List Byte),
    encode (.nop x) = (BitVec.ofNat 32 (0x00000000 + x.length), x) ∧ exec (.nop x) s = .next (answered 0 0 [] s)

/-- R81: `ECB_ENC` answers `E` of each block at its position, calls `E` once for each block in increasing order and
writes no register; a length that is no multiple of `B` is `ERR_LEN` with the remainder. -/
def Obligations.EcbEncEncryptsEachBlock : Prop :=
  ∀ (s : State) (x : List Byte),
    encode (.ecbEnc x) = (BitVec.ofNat 32 (0x10000000 + x.length), x) ∧
    (x.length % Config.blockSize = 0 →
      ∃ out : List Byte, out.length = x.length ∧
        (∀ k, k < x.length / Config.blockSize →
          blk Config.blockSize out k = encBlock Config.bt (blk Config.blockSize x k)) ∧
        exec (.ecbEnc x) s = .next (answered 0 0 out
          { s with calls := s.calls ++
              (List.range (x.length / Config.blockSize)).map fun k => .enc (blk Config.blockSize x k) })) ∧
    (x.length % Config.blockSize ≠ 0 →
      exec (.ecbEnc x) s = .next (answered 4 (x.length % Config.blockSize) [] s))

/-- R82: `ECB_DEC` answers `D` of each block at its position, calls `D` once for each block in increasing order and
writes no register; a length that is no multiple of `B` is `ERR_LEN` with the remainder. -/
def Obligations.EcbDecDecryptsEachBlock : Prop :=
  ∀ (s : State) (x : List Byte),
    encode (.ecbDec x) = (BitVec.ofNat 32 (0x11000000 + x.length), x) ∧
    (x.length % Config.blockSize = 0 →
      ∃ out : List Byte, out.length = x.length ∧
        (∀ k, k < x.length / Config.blockSize →
          blk Config.blockSize out k = decBlock Config.bt (blk Config.blockSize x k)) ∧
        exec (.ecbDec x) s = .next (answered 0 0 out
          { s with calls := s.calls ++
              (List.range (x.length / Config.blockSize)).map fun k => .dec (blk Config.blockSize x k) })) ∧
    (x.length % Config.blockSize ≠ 0 →
      exec (.ecbDec x) s = .next (answered 4 (x.length % Config.blockSize) [] s))

/-- R83 (a): `ECB_DEC` of what `ECB_ENC` gave is the plaintext, and the other way round, in any two states. -/
def Obligations.EcbRoundTrip : Prop :=
  ∀ (s u : State) (p : List Byte), p.length % Config.blockSize = 0 →
    (∃ t r t' r', Runs (.ecbEnc p) s t r ∧ Runs (.ecbDec r.out) u t' r' ∧ r'.out = p) ∧
    (∃ t r t' r', Runs (.ecbDec p) s t r ∧ Runs (.ecbEnc r.out) u t' r' ∧ r'.out = p)

/-- R83 (b), (c): where the blocks of `q` are blocks of `p` taken in another order or repeated, the output blocks are
the output blocks of `p` taken the same way, for both commands. -/
def Obligations.EcbOutputFollowsBlockOrder : Prop :=
  ∀ f ∈ [Instr.ecbEnc, Instr.ecbDec], ∀ (s u : State) (p q : List Byte) (order : Nat → Nat),
    p.length % Config.blockSize = 0 → q.length % Config.blockSize = 0 →
    (∀ k, k < q.length / Config.blockSize →
      order k < p.length / Config.blockSize ∧ blk Config.blockSize q k = blk Config.blockSize p (order k)) →
    ∃ t r t' r', Runs (f p) s t r ∧ Runs (f q) u t' r' ∧
      ∀ k, k < q.length / Config.blockSize →
        blk Config.blockSize r'.out k = blk Config.blockSize r.out (order k)

/-- R83 (d): changing one input block changes the output block at its position and no other. -/
def Obligations.EcbChangeStaysInItsBlock : Prop :=
  ∀ f ∈ [Instr.ecbEnc, Instr.ecbDec], ∀ (s u : State) (p q : List Byte) (m : Nat),
    p.length % Config.blockSize = 0 → q.length = p.length → m < p.length / Config.blockSize →
    blk Config.blockSize p m ≠ blk Config.blockSize q m →
    (∀ k, k < p.length / Config.blockSize → k ≠ m → blk Config.blockSize p k = blk Config.blockSize q k) →
    ∃ t r t' r', Runs (f p) s t r ∧ Runs (f q) u t' r' ∧
      blk Config.blockSize r.out m ≠ blk Config.blockSize r'.out m ∧
      ∀ k, k < p.length / Config.blockSize → k ≠ m →
        blk Config.blockSize r.out k = blk Config.blockSize r'.out k

/-! ### The CBC unit -/

/-- R91: `CBC_LDIV` with `B` bytes loads them into `CV` and sets `CBC_VALID`; any other length is `ERR_IVLEN` and
changes nothing. -/
def Obligations.CbcLdivLoadsIv : Prop :=
  ∀ (s : State) (x : List Byte),
    encode (.cbcLdiv x) = (BitVec.ofNat 32 (0x20000000 + x.length), x) ∧
    (x.length = Config.blockSize →
      exec (.cbcLdiv x) s = .next (answered 0 0 [] { s with cv := x, status := s.status ||| 0x01#8 })) ∧
    (x.length ≠ Config.blockSize → exec (.cbcLdiv x) s = .next (answered 5 0 [] s))

/-- R92: `CBC_ENC` gives `C_k = E(xorB(P_k, C_(k-1)))`, with the `CV` of before in the place of `C_(-1)`, leaves the
last ciphertext block in `CV` and calls `E` in increasing order; without a context it is `ERR_NOCTX`, and else with a
length that is no multiple of `B` it is `ERR_LEN`, neither of which changes anything. -/
def Obligations.CbcEncChainsBlocks : Prop :=
  ∀ (s : State) (x : List Byte),
    encode (.cbcEnc x) = (BitVec.ofNat 32 (0x21000000 + x.length), x) ∧
    (cbcValid s = false → exec (.cbcEnc x) s = .next (answered 2 0 [] s)) ∧
    (cbcValid s = true → x.length % Config.blockSize ≠ 0 →
      exec (.cbcEnc x) s = .next (answered 4 (x.length % Config.blockSize) [] s)) ∧
    (cbcValid s = true → x.length % Config.blockSize = 0 →
      ∃ (out : List Byte) (operand : Nat → List Byte), out.length = x.length ∧
        (∀ k, k < x.length / Config.blockSize →
          operand k = xorB Config.blockSize (blk Config.blockSize x k)
            (if k = 0 then s.cv else blk Config.blockSize out (k - 1)) ∧
          blk Config.blockSize out k = encBlock Config.bt (operand k)) ∧
        exec (.cbcEnc x) s = .next (answered 0 0 out
          { s with
            cv := if x.length / Config.blockSize = 0 then s.cv
              else blk Config.blockSize out (x.length / Config.blockSize - 1),
            calls := s.calls ++ (List.range (x.length / Config.blockSize)).map fun k => .enc (operand k) }))

/-- R93: `CBC_DEC` gives `P_k = xorB(D(C_k), C_(k-1))`, with the `CV` of before in the place of `C_(-1)`, leaves the last
block of the input in `CV` and calls `D` once for each block in some order; the errors are those of `CBC_ENC`. That
`orderDraws` advances by one is the model's own (DESIGN CHOICE, log entry 4), and that the empty input succeeds is the
spec's decision D15 (log entry 5). -/
def Obligations.CbcDecChainsBlocks : Prop :=
  ∀ (s : State) (x : List Byte),
    encode (.cbcDec x) = (BitVec.ofNat 32 (0x22000000 + x.length), x) ∧
    (cbcValid s = false → exec (.cbcDec x) s = .next (answered 2 0 [] s)) ∧
    (cbcValid s = true → x.length % Config.blockSize ≠ 0 →
      exec (.cbcDec x) s = .next (answered 4 (x.length % Config.blockSize) [] s)) ∧
    (cbcValid s = true → x.length % Config.blockSize = 0 →
      ∃ (out : List Byte) (made : List BtCall), out.length = x.length ∧
        (∀ k, k < x.length / Config.blockSize →
          blk Config.blockSize out k = xorB Config.blockSize (decBlock Config.bt (blk Config.blockSize x k))
            (if k = 0 then s.cv else blk Config.blockSize x (k - 1))) ∧
        made.Perm ((List.range (x.length / Config.blockSize)).map fun k => .dec (blk Config.blockSize x k)) ∧
        exec (.cbcDec x) s = .next (answered 0 0 out
          { s with
            cv := if x.length / Config.blockSize = 0 then s.cv
              else blk Config.blockSize x (x.length / Config.blockSize - 1),
            calls := s.calls ++ made,
            orderDraws := s.orderDraws + 1 }))

/-- R94: the reference's backward order gives the same output and the same final `CV`. -/
def Obligations.CbcDecBackwardFormAgrees : Prop :=
  ∀ (s : State) (x : List Byte),
    cbcValid s = true → x.length % Config.blockSize = 0 → 0 < x.length / Config.blockSize →
    ∃ t r, Runs (.cbcDec x) s t r ∧
      r.out = cbcDecBackward Config.bt s.cv x (x.length / Config.blockSize) [] ∧
      t.cv = memRead x ((x.length / Config.blockSize - 1) * Config.blockSize) Config.blockSize

/-- R95 (a), (b): `CBC_DEC` from the same `CV` recovers what `CBC_ENC` encrypted, and both leave the same `CV`, the last
ciphertext block. -/
def Obligations.CbcRoundTrip : Prop :=
  ∀ (s u : State) (p : List Byte),
    cbcValid s = true → cbcValid u = true → s.cv = u.cv → p.length % Config.blockSize = 0 →
    ∃ t r t' r', Runs (.cbcEnc p) s t r ∧ Runs (.cbcDec r.out) u t' r' ∧ r'.out = p ∧ t.cv = t'.cv ∧
      (0 < p.length / Config.blockSize →
        t.cv = blk Config.blockSize r.out (p.length / Config.blockSize - 1))

/-- R95 (c): a plaintext block changes no ciphertext block before it; and where only one plaintext block differs, its
ciphertext block and every later one differ. -/
def Obligations.CbcEncChangeReachesEveryLaterBlock : Prop :=
  ∀ (s u : State) (p q : List Byte) (m : Nat),
    cbcValid s = true → cbcValid u = true → s.cv = u.cv →
    p.length % Config.blockSize = 0 → q.length = p.length → m < p.length / Config.blockSize →
    (∀ k, k < m → blk Config.blockSize p k = blk Config.blockSize q k) →
    ∃ t r t' r', Runs (.cbcEnc p) s t r ∧ Runs (.cbcEnc q) u t' r' ∧
      (∀ k, k < m → blk Config.blockSize r.out k = blk Config.blockSize r'.out k) ∧
      (blk Config.blockSize p m ≠ blk Config.blockSize q m →
        (∀ k, m < k → k < p.length / Config.blockSize → blk Config.blockSize p k = blk Config.blockSize q k) →
        ∀ k, m ≤ k → k < p.length / Config.blockSize →
          blk Config.blockSize r.out k ≠ blk Config.blockSize r'.out k)

/-- R95 (d): changing ciphertext block `m` changes the output blocks `m` and `m+1` only: no other output block differs,
and where block `m` is changed, output block `m` differs, and output block `m+1` where there is one. -/
def Obligations.CbcDecChangeStaysInTwoBlocks : Prop :=
  ∀ (s u : State) (p q : List Byte) (m : Nat),
    cbcValid s = true → cbcValid u = true → s.cv = u.cv →
    p.length % Config.blockSize = 0 → q.length = p.length →
    (∀ k, k < p.length / Config.blockSize → k ≠ m → blk Config.blockSize p k = blk Config.blockSize q k) →
    ∃ t r t' r', Runs (.cbcDec p) s t r ∧ Runs (.cbcDec q) u t' r' ∧
      (∀ k, k < p.length / Config.blockSize → k ≠ m → k ≠ m + 1 →
        blk Config.blockSize r.out k = blk Config.blockSize r'.out k) ∧
      (m < p.length / Config.blockSize → blk Config.blockSize p m ≠ blk Config.blockSize q m →
        blk Config.blockSize r.out m ≠ blk Config.blockSize r'.out m ∧
        (m + 1 < p.length / Config.blockSize →
          blk Config.blockSize r.out (m + 1) ≠ blk Config.blockSize r'.out (m + 1)))

/-- R96: one `CV` serves both directions: a `CBC_DEC` right after a `CBC_ENC` starts from the last ciphertext block that
one produced. -/
def Obligations.CbcDecAfterEncStartsFromItsLastBlock : Prop :=
  ∀ (s : State) (p c : List Byte),
    cbcValid s = true → p.length % Config.blockSize = 0 → 0 < p.length / Config.blockSize →
    c.length % Config.blockSize = 0 → 0 < c.length / Config.blockSize →
    ∃ t r t' r', Runs (.cbcEnc p) s t r ∧ Runs (.cbcDec c) t t' r' ∧
      blk Config.blockSize r'.out 0 = xorB Config.blockSize (decBlock Config.bt (blk Config.blockSize c 0))
        (blk Config.blockSize r.out (p.length / Config.blockSize - 1))

/-- R51: a command on `X1` and then on `X2` gives the outputs and leaves the registers of one command on `X1 ++ X2`: the
block modes for whole blocks, `RC4_PRGA` for any lengths. -/
def Obligations.SplitBufferGivesTheSameResult : Prop :=
  ∀ f ∈ [Instr.ecbEnc, Instr.ecbDec, Instr.cbcEnc, Instr.cbcDec, Instr.rc4Prga], ∀ (s : State) (x₁ x₂ : List Byte),
    (f [] ≠ Instr.rc4Prga [] → x₁.length % Config.blockSize = 0 ∧ x₂.length % Config.blockSize = 0) →
    ∃ s₁ r₁ s₂ r₂ t r, Runs (f x₁) s s₁ r₁ ∧ Runs (f x₂) s₁ s₂ r₂ ∧ Runs (f (x₁ ++ x₂)) s t r ∧
      r₁.out ++ r₂.out = r.out ∧ registers s₂ = registers t

/-! ### The RC4 unit -/

/-- R106, R107: `RC4_KSA` with a key of 5 to 32 bytes leaves the array of the key schedule that starts from the identity
and `kj = 0`, with `I = J = 0`, and sets `RC4_VALID`; any other length is `ERR_KEYSIZE` and changes nothing. -/
def Obligations.Rc4KsaSchedulesKey : Prop :=
  ∀ (s : State) (key : List Byte),
    encode (.rc4Ksa key) = (BitVec.ofNat 32 (0x30000000 + key.length), key) ∧
    (5 ≤ key.length → key.length ≤ 32 →
      ∃ (S : Nat → Vector Byte 256) (kj : Nat → Byte), KsaTrace key S kj ∧
        exec (.rc4Ksa key) s = .next (answered 0 0 []
          { s with rc4 := ⟨S 256, 0x00#8, 0x00#8⟩, status := s.status ||| 0x02#8 })) ∧
    (key.length < 5 ∨ 32 < key.length → exec (.rc4Ksa key) s = .next (answered 3 0 [] s))

/-- R106: keys whose repetition over 256 positions is the same give the same context. -/
def Obligations.Rc4KsaDependsOnKeyRepetition : Prop :=
  ∀ (s u : State) (key key' : List Byte),
    5 ≤ key.length → key.length ≤ 32 → 5 ≤ key'.length → key'.length ≤ 32 →
    (∀ n, n < 256 → key.getD (n % key.length) 0#8 = key'.getD (n % key'.length) 0#8) →
    ∃ t r t' r', Runs (.rc4Ksa key) s t r ∧ Runs (.rc4Ksa key') u t' r' ∧ t.rc4 = t'.rc4

/-- R108: `RC4_PRGA` advances the context once for each input byte and answers each byte XORed with the keystream byte of
its step; without a context it is `ERR_NOCTX` and changes nothing. -/
def Obligations.Rc4PrgaXorsKeystream : Prop :=
  ∀ (s : State) (x : List Byte),
    encode (.rc4Prga x) = (BitVec.ofNat 32 (0x31000000 + x.length), x) ∧
    (rc4Valid s = false → exec (.rc4Prga x) s = .next (answered 2 0 [] s)) ∧
    (rc4Valid s = true →
      ∃ (c : Nat → Rc4Ctx) (K : Nat → Byte) (out : List Byte), c 0 = s.rc4 ∧ PrgaTrace x.length c K ∧
        out.length = x.length ∧ (∀ t, t < x.length → out.getD t 0#8 = x.getD t 0#8 ^^^ K t) ∧
        exec (.rc4Prga x) s = .next (answered 0 0 out { s with rc4 := c x.length }))

/-- R108 (a), R109 (d): the state after `RC4_PRGA` depends on the state before it and on `LEN`, not on the bytes, and so
does the keystream. -/
def Obligations.Rc4PrgaAdvancesTheSameForAnyData : Prop :=
  ∀ (s u : State) (x y : List Byte),
    rc4Valid s = true → rc4Valid u = true → s.rc4 = u.rc4 → x.length = y.length →
    ∃ t r t' r', Runs (.rc4Prga x) s t r ∧ Runs (.rc4Prga y) u t' r' ∧ t.rc4 = t'.rc4 ∧
      List.zipWith (· ^^^ ·) x r.out = List.zipWith (· ^^^ ·) y r'.out

/-- R109 (c): `RC4_PRGA` applied to its own output from the same context gives the input back. -/
def Obligations.Rc4PrgaIsAnInvolution : Prop :=
  ∀ (s u : State) (x : List Byte),
    rc4Valid s = true → rc4Valid u = true → s.rc4 = u.rc4 →
    ∃ t r t' r', Runs (.rc4Prga x) s t r ∧ Runs (.rc4Prga r.out) u t' r' ∧ r'.out = x ∧ t.rc4 = t'.rc4

/-- R108 (b), (e): `I` advances by `LEN` modulo 256, so it returns to its value after 256 bytes. -/
def Obligations.Rc4PrgaAdvancesIndexByLen : Prop :=
  ∀ (s : State) (x : List Byte), rc4Valid s = true →
    ∃ t r, Runs (.rc4Prga x) s t r ∧ t.rc4.i = s.rc4.i + BitVec.ofNat 8 x.length ∧
      (x.length = 256 → t.rc4.i = s.rc4.i) ∧ (x = [] → registers t = registers s)

/-- R74: `RC4_KEYSTREAM n` and `RC4_DROP n` are `RC4_PRGA` commands on zeros whose lengths sum to `n`, one where it
suffices; `CBC_DEC_PREFIXED X` loads the first block and decrypts the rest. -/
def Obligations.PseudoInstructionsExpandToCommands : Prop :=
  (∀ b n : Nat,
    lineCommands b (.rc4Drop n) = lineCommands b (.rc4Keystream n) ∧
    ((lineCommands b (.rc4Keystream n)).map Instr.len).sum = n ∧
    (∀ i ∈ lineCommands b (.rc4Keystream n), i.WellFormed ∧ i = .rc4Prga (List.replicate i.len 0#8)) ∧
    (n ≤ 16777215 → lineCommands b (.rc4Keystream n) = [.rc4Prga (List.replicate n 0#8)])) ∧
  ∀ (b : Nat) (iv c : List Byte), iv.length = b →
    lineCommands b (.cbcDecPrefixed (.hex (iv ++ c))) = [.cbcLdiv iv, .cbcDec c]

/-- R74: `CBC_DEC_PREFIXED` of an IV followed by what `CBC_ENC` made under it recovers the plaintext, from any state. -/
def Obligations.PrefixedDecryptionRecoversPlaintext : Prop :=
  ∀ (s u : State) (iv p : List Byte), iv.length = Config.blockSize → p.length % Config.blockSize = 0 →
    ∃ s₁ r₁ s₂ r₂, Runs (.cbcLdiv iv) s s₁ r₁ ∧ Runs (.cbcEnc p) s₁ s₂ r₂ ∧
      ∃ r r', (runCommands (lineCommands Config.blockSize (.cbcDecPrefixed (.hex (iv ++ r₂.out)))) u).responses =
          u.responses ++ [r, r'] ∧ r.out = [] ∧ r'.out = p

/-! ### Errors, responses and the whole machine -/

/-- R66, R132, R139: the code and remainder answered are those of the first check that fails, in the order opcode,
context, length; `OK` where none does. -/
def Obligations.ResponseReportsFirstFailedCheck : Prop :=
  ∀ (i : Instr) (s : State),
    ∃ t r, Runs i s t r ∧ rspCode r = (checksOf i s).1 ∧ rspRem r = (checksOf i s).2

/-- R130, R140: a command that ends in an error changes nothing but to answer it, outputs nothing and calls no
transform. -/
def Obligations.ErrorLeavesOnlyItsResponse : Prop :=
  ∀ (i : Instr) (s : State), checksOf i s ≠ (0, 0) →
    ∃ r, exec i s = .next { s with responses := s.responses ++ [r] } ∧
      rspCode r = (checksOf i s).1 ∧ rspRem r = (checksOf i s).2 ∧ r.out = []

/-- R141, R168: after a command that failed, the next command answers and leaves the registers as if the failed one had
not been sent. -/
def Obligations.FailedCommandDoesNotDisturbTheNext : Prop :=
  ∀ (i j : Instr) (s : State), checksOf i s ≠ (0, 0) →
    ∃ s₁ r₁ t r t' , Runs i s s₁ r₁ ∧ Runs j s₁ t r ∧ Runs j s t' r ∧ registers t = registers t'

/-- R144: the same failed command sent again gives the same response again. -/
def Obligations.FailedCommandFailsAgain : Prop :=
  ∀ (i : Instr) (s : State), checksOf i s ≠ (0, 0) → ∃ t r t', Runs i s t r ∧ Runs i t t' r

/-- R136: under any configuration, a block-mode command whose length is no multiple of the block size is answered with
`ERR_LEN`, the block size and the actual remainder; it outputs nothing, calls no transform and changes nothing. -/
def Obligations.MisalignedLengthIsReportedWithItsRemainder : Prop :=
  ∀ (bt : BlockTransform) (s : State) (x : List Byte), x.length % bt.size ≠ 0 →
    let t : State := { s with responses := s.responses ++
      [⟨BitVec.ofNat 32 (4 * 2 ^ 24 + bt.size * 2 ^ 16 + x.length % bt.size * 2 ^ 8 + statusNumber s), []⟩] }
    ecbEncOn bt x s = t ∧ ecbDecOn bt x s = t ∧ (cbcValid s = true → cbcEncOn bt x s = t ∧ cbcDecOn bt x s = t)

/-- R138, R46: every delivered word is answered by exactly one response whose word is
`CODE * 2^24 + B * 2^16 + REM * 2^8 + STATUS`, with `STATUS` as it is after the command, no code above 5, and a
remainder only for `ERR_LEN`; its output is `LEN` bytes for a block-mode command or `RC4_PRGA` that succeeds, and none
otherwise. -/
def Obligations.EveryCommandHasOneResponse : Prop :=
  ∀ (s : State) (c : Command) (rest : List HostEvent), s.port = .command c :: rest →
    ∃ t r, step s = .next t ∧ t.responses = s.responses ++ [r] ∧ t.port = rest ∧
      r.word.toNat = rspCode r * 2 ^ 24 + Config.blockSize * 2 ^ 16 + rspRem r * 2 ^ 8 + statusNumber t ∧
      rspBlk r = Config.blockSize ∧ rspStat r = statusNumber t ∧ rspCode r ≤ 5 ∧
      (rspRem r = if rspCode r = 4 then lenField c.word % Config.blockSize else 0) ∧
      r.out.length =
        if rspCode r = 0 ∧ opField c.word ∈ [0x10#8, 0x11#8, 0x21#8, 0x22#8, 0x31#8] then lenField c.word else 0

/-- R46: the output is as long as the input for a successful block-mode command or `RC4_PRGA`, and empty for every other
command and every error. -/
def Obligations.OutputHasTheLengthOfItsCommand : Prop :=
  ∀ (i : Instr) (s : State),
    ∃ t r, Runs i s t r ∧ r.out.length = if checksOf i s = (0, 0) then okOutputLength i else 0

/-- R28, R49, R172: a successful block-mode command calls its function of the transform `LEN / B` times, and nothing else
calls the transform. -/
def Obligations.TransformIsCalledOncePerBlock : Prop :=
  ∀ (i : Instr) (s : State),
    ∃ t r made, Runs i s t r ∧ t.calls = s.calls ++ made ∧
      (encCalls made, decCalls made) = if checksOf i s = (0, 0) then okTransformCalls i else (0, 0)

/-- R28: the frame of every command. Only the CBC commands can write `CV`, only the RC4 commands `S`, `I`, `J`; `STATUS`
changes in the one bit a set-up command sets; no command touches the port, and only the block modes call the
transform. -/
def Obligations.CommandsWriteOnlyTheirUnitsRegisters : Prop :=
  ∀ (i : Instr) (s : State),
    ∃ t r, Runs i s t r ∧ t.port = s.port ∧
      (unitOf i ≠ some .cbc → t.cv = s.cv) ∧
      (unitOf i ≠ some .rc4 → t.rc4 = s.rc4) ∧
      ((∀ x, i ≠ .cbcLdiv x) → (∀ x, i ≠ .rc4Ksa x) → t.status = s.status) ∧
      ((∀ x, i ≠ .cbcEnc x) → (∀ x, i ≠ .cbcDec x) → unitOf i ≠ some .ecb → t.calls = s.calls) ∧
      ((∀ x, i ≠ .cbcDec x) → t.orderDraws = s.orderDraws)

/-- R25, R121: `CBC_VALID` is set by a successful `CBC_LDIV` and `RC4_VALID` by a successful `RC4_KSA`; no command clears
either or changes another bit of `STATUS`. -/
def Obligations.OnlySetUpCommandsSetFlags : Prop :=
  ∀ (i : Instr) (s : State),
    ∃ t r, Runs i s t r ∧
      (cbcValid t = true ↔ cbcValid s = true ∨ ∃ x, i = .cbcLdiv x ∧ x.length = Config.blockSize) ∧
      (rc4Valid t = true ↔ rc4Valid s = true ∨ ∃ x, i = .rc4Ksa x ∧ 5 ≤ x.length ∧ x.length ≤ 32) ∧
      t.status &&& 0xFC#8 = s.status &&& 0xFC#8

/-- R34: in a run that mixes the units, each unit's registers, output buffers and response fields `CODE`, `BLK` and `REM`
are those of the run with the other commands taken out. -/
def Obligations.UnitsDoNotInteract : Prop :=
  ∀ (u : CipherUnit) (is : List Instr) (s : State), s.responses = [] →
    ((is.zip (runCommands is s).responses).filter fun p => unitOf p.1 == some u).map
        (fun p => (p.2.out, p.2.word.extractLsb' 8 24)) =
      (runCommands (is.filter fun i => unitOf i == some u) s).responses.map
        (fun r => (r.out, r.word.extractLsb' 8 24)) ∧
    (u = .cbc →
      (runCommands is s).cv = (runCommands (is.filter fun i => unitOf i == some u) s).cv ∧
      cbcValid (runCommands is s) = cbcValid (runCommands (is.filter fun i => unitOf i == some u) s)) ∧
    (u = .rc4 →
      (runCommands is s).rc4 = (runCommands (is.filter fun i => unitOf i == some u) s).rc4 ∧
      rc4Valid (runCommands is s) = rc4Valid (runCommands (is.filter fun i => unitOf i == some u) s))

/-- R26: a register that holds no value is never read: two states that differ only in such registers answer alike, and
differ only so after the step. -/
def Obligations.UnwrittenRegistersAreNeverRead : Prop :=
  ∀ s u t : State, SameButUnwritten s u → step s = .next t → ∃ v, step u = .next v ∧ SameButUnwritten t v
end

