-- ==== Sys2Proof/Laws/Operands.lean ====
section
/-! SUPPORT. Buffers and blocks: a buffer of whole blocks is its blocks put together, and what `E`, `D` and `xorB` do to
blocks of the right length. -/

namespace Sys2Proof.Machine

variable {b : Nat}

/-! ### Cutting a buffer into blocks -/

@[simp] theorem blocks_length (x : List Byte) : (blocks b x).length = x.length / b := by simp [blocks, blockCount]

theorem blocks_getElem (x : List Byte) (k : Nat) (h : k < (blocks b x).length) : (blocks b x)[k] = blk b x k := by
  simp [blocks]

@[simp] theorem blocks_nil : blocks b [] = [] := by simp [blocks, blockCount]

theorem blk_length {x : List Byte} {k : Nat} (h : (k + 1) * b ≤ x.length) : (blk b x k).length = b := by
  have : k * b + b ≤ x.length := by rw [← Nat.succ_mul]; exact h
  simp only [blk, memRead, List.length_take, List.length_drop]; omega

theorem mem_blocks_length {x u : List Byte} (hu : u ∈ blocks b x) : u.length = b := by
  obtain ⟨k, hk, rfl⟩ := List.mem_map.1 hu
  rw [List.mem_range, blockCount] at hk
  exact blk_length ((Nat.mul_le_mul_right b hk).trans (Nat.div_mul_le_self _ _))

theorem blk_append_zero {u x : List Byte} (hu : u.length = b) : blk b (u ++ x) 0 = u := by
  simp [blk, memRead, ← hu]

theorem blk_append_succ {u x : List Byte} (hu : u.length = b) (k : Nat) : blk b (u ++ x) (k + 1) = blk b x k := by
  have h : (k + 1) * b = u.length + k * b := by rw [Nat.succ_mul, hu, Nat.add_comm]
  rw [blk, memRead, h, ← List.drop_drop, List.drop_left]; rfl

theorem blocks_append_block (hb : 0 < b) {u x : List Byte} (hu : u.length = b) :
    blocks b (u ++ x) = u :: blocks b x := by
  have h : (u ++ x).length / b = x.length / b + 1 := by
    rw [List.length_append, hu, Nat.add_comm, Nat.add_div_right _ hb]
  rw [blocks, blockCount, h, List.range_succ_eq_map, List.map_cons, List.map_map, blk_append_zero hu]
  simp [blocks, blockCount, Function.comp_def, blk_append_succ hu]

/-- A list of blocks of `b` bytes is what its concatenation is cut into. -/
theorem blocks_flatten (hb : 0 < b) {l : List (List Byte)} (hl : ∀ u ∈ l, u.length = b) : blocks b l.flatten = l := by
  induction l with
  | nil => simp
  | cons u l ih =>
    rw [List.flatten_cons, blocks_append_block hb (hl u (by simp)), ih fun v hv => hl v (by simp [hv])]

theorem flatten_length {l : List (List Byte)} (hl : ∀ u ∈ l, u.length = b) : l.flatten.length = l.length * b := by
  induction l with
  | nil => simp
  | cons u l ih =>
    rw [List.flatten_cons, List.length_append, hl u (by simp), ih fun v hv => hl v (by simp [hv]), List.length_cons,
      Nat.succ_mul, Nat.add_comm]

theorem blk_flatten (hb : 0 < b) {l : List (List Byte)} (hl : ∀ u ∈ l, u.length = b) {k : Nat} (hk : k < l.length) :
    blk b l.flatten k = l[k] := by
  have h := blocks_getElem (b := b) l.flatten k (by simpa [blocks_flatten hb hl] using hk)
  rw [← h]; simp [blocks_flatten hb hl]

/-- A buffer of whole blocks is the concatenation of its blocks. -/
theorem flatten_blocks (hb : 0 < b) {x : List Byte} (hx : x.length % b = 0) : (blocks b x).flatten = x := by
  obtain ⟨q, hq⟩ := Nat.dvd_of_mod_eq_zero hx
  clear hx
  induction q generalizing x with
  | zero => simp [List.length_eq_zero_iff.1 (hq.trans (Nat.mul_zero b))]
  | succ q ih =>
    rw [Nat.mul_succ] at hq
    have hu : (x.take b).length = b := List.length_take_of_le (by omega)
    have hd : (x.drop b).length = b * q := by rw [List.length_drop]; omega
    conv_lhs => rw [← List.take_append_drop b x, blocks_append_block hb hu, List.flatten_cons, ih hd]
    exact List.take_append_drop b x

/-- Cutting the concatenation of two buffers, the first of whole blocks, cuts each (R51). -/
theorem blocks_append (hb : 0 < b) {x : List Byte} (hx : x.length % b = 0) (y : List Byte) :
    blocks b (x ++ y) = blocks b x ++ blocks b y := by
  have key : ∀ l : List (List Byte), (∀ u ∈ l, u.length = b) → blocks b (l.flatten ++ y) = l ++ blocks b y := by
    intro l hl
    induction l with
    | nil => simp
    | cons u l ih =>
      rw [List.flatten_cons, List.append_assoc, blocks_append_block hb (hl u (by simp)),
        ih fun v hv => hl v (by simp [hv]), List.cons_append]
  simpa [flatten_blocks hb hx] using key (blocks b x) fun u hu => mem_blocks_length hu

/-- Block `k` of a buffer of whole blocks has `b` bytes. -/
theorem blk_length_of_lt {x : List Byte} {k : Nat} (hk : k < x.length / b) : (blk b x k).length = b :=
  blk_length ((Nat.mul_le_mul_right b hk).trans (Nat.div_mul_le_self _ _))

/-- A buffer made by sending each block through a map of blocks: its length, and block `k` of it (R80). -/
theorem map_blocks_flatten (hb : 0 < b) {f : List Byte → List Byte} (hf : ∀ u, (f u).length = b) {x : List Byte}
    (hx : x.length % b = 0) :
    ((blocks b x).map f).flatten.length = x.length ∧
    ∀ k, k < x.length / b → blk b ((blocks b x).map f).flatten k = f (blk b x k) := by
  have hl : ∀ u ∈ (blocks b x).map f, u.length = b := by
    intro u hu
    obtain ⟨v, _, rfl⟩ := List.mem_map.1 hu
    exact hf v
  refine ⟨?_, fun k hk => ?_⟩
  · rw [flatten_length hl, List.length_map, blocks_length, Nat.div_mul_cancel (Nat.dvd_of_mod_eq_zero hx)]
  · rw [blk_flatten hb hl (by simpa using hk), List.getElem_map, blocks_getElem]

/-! ### The last block -/

theorem getLastD_eq {α : Type} (l : List α) (d : α) :
    l.getLastD d = if h : l.length = 0 then d else l[l.length - 1] := by
  rcases l.eq_nil_or_concat with rfl | ⟨l, a, rfl⟩ <;> simp

theorem getLastD_append {α : Type} (l m : List α) (d : α) : (l ++ m).getLastD d = m.getLastD (l.getLastD d) := by
  rcases m.eq_nil_or_concat with rfl | ⟨m, a, rfl⟩
  · simp
  · rw [List.concat_eq_append, ← List.append_assoc]; simp

/-- The last of a list of blocks is the last block of their concatenation. -/
theorem getLastD_flatten (hb : 0 < b) {l : List (List Byte)} (hl : ∀ u ∈ l, u.length = b) (d : List Byte) :
    l.getLastD d = if l.length = 0 then d else blk b l.flatten (l.length - 1) := by
  rw [getLastD_eq]
  split
  · rfl
  · rw [blk_flatten hb hl]

/-- The last block of a buffer. -/
theorem getLastD_blocks (x d : List Byte) :
    (blocks b x).getLastD d = if x.length / b = 0 then d else blk b x (x.length / b - 1) := by
  rw [getLastD_eq]
  simp only [blocks_length]
  split
  · rfl
  · rw [blocks_getElem]

/-! ### The block transform -/

@[simp] theorem encBlock_length (bt : BlockTransform) (u : List Byte) : (encBlock bt u).length = bt.size := by
  simp [encBlock]

@[simp] theorem decBlock_length (bt : BlockTransform) (u : List Byte) : (decBlock bt u).length = bt.size := by
  simp [decBlock]

theorem toBlock_toList {n : Nat} {u : List Byte} (h : u.length = n) : (toBlock n u).toList = u := by
  apply List.ext_getElem
  · simp [h]
  · intro i h₁ h₂
    simp [toBlock, Vector.getElem_toList, h₂]

@[simp] theorem toBlock_of_toList {n : Nat} (v : Vector Byte n) : toBlock n v.toList = v := by
  apply Vector.ext
  intro i hi
  simp [toBlock]

/-- `bt_inverse`, one way (R9). -/
theorem decBlock_encBlock (bt : BlockTransform) {u : List Byte} (h : u.length = bt.size) :
    decBlock bt (encBlock bt u) = u := by
  simp [decBlock, encBlock, toBlock_toList h]

/-- `bt_inverse`, the other way (R9). -/
theorem encBlock_decBlock (bt : BlockTransform) {u : List Byte} (h : u.length = bt.size) :
    encBlock bt (decBlock bt u) = u := by
  simp [decBlock, encBlock, toBlock_toList h]

/-- `E` is injective on blocks. -/
theorem encBlock_inj (bt : BlockTransform) {u v : List Byte} (hu : u.length = bt.size) (hv : v.length = bt.size)
    (h : encBlock bt u = encBlock bt v) : u = v := by
  rw [← decBlock_encBlock bt hu, h, decBlock_encBlock bt hv]

/-- `D` is injective on blocks. -/
theorem decBlock_inj (bt : BlockTransform) {u v : List Byte} (hu : u.length = bt.size) (hv : v.length = bt.size)
    (h : decBlock bt u = decBlock bt v) : u = v := by
  rw [← encBlock_decBlock bt hu, h, encBlock_decBlock bt hv]

/-! ### `xorB` -/

@[simp] theorem xorB_length (u v : List Byte) : (xorB b u v).length = b := by simp [xorB]

/-- Lane `t` of `xorB` (R13). -/
theorem xorB_getD (u v : List Byte) {t : Nat} (ht : t < b) : (xorB b u v).getD t 0#8 = u.getD t 0#8 ^^^ v.getD t 0#8 := by
  simp [xorB, ht]

theorem block_ext {u v : List Byte} (hu : u.length = b) (hv : v.length = b)
    (h : ∀ t, t < b → u.getD t 0#8 = v.getD t 0#8) : u = v := by
  apply List.ext_getElem (hu.trans hv.symm)
  intro t h₁ h₂
  simpa [h₁, h₂] using h t (hu ▸ h₁)

/-- XORing twice with the same block gives the block back. -/
theorem xorB_cancel {u : List Byte} (hu : u.length = b) (v : List Byte) : xorB b (xorB b u v) v = u :=
  block_ext (xorB_length ..) hu fun t ht => by rw [xorB_getD _ _ ht, xorB_getD _ _ ht, BitVec.xor_assoc]; simp

theorem xorB_comm (u v : List Byte) : xorB b u v = xorB b v u := by simp [xorB, BitVec.xor_comm]

theorem xorB_left_inj {u u' v : List Byte} (hu : u.length = b) (hu' : u'.length = b)
    (h : xorB b u v = xorB b u' v) : u = u' := by
  rw [← xorB_cancel hu v, h, xorB_cancel hu']

theorem xorB_right_inj {u v v' : List Byte} (hv : v.length = b) (hv' : v'.length = b)
    (h : xorB b u v = xorB b u v') : v = v' := by
  rw [xorB_comm u v, xorB_comm u v'] at h; exact xorB_left_inj hv hv' h

end Sys2Proof.Machine
end

