-- ==== Sys2Proof/Laws/State.lean ====
section
/-! SUPPORT. What each update of the state writes and leaves, one lemma for each field, so that no proof unfolds a record
update. -/

namespace Sys2Proof.Machine

variable (bt : BlockTransform) (s : State)

/-! ### `writeCv` -/
@[simp] theorem writeCv_cv (v) : (writeCv v s).cv = v := rfl
@[simp] theorem writeCv_rc4 (v) : (writeCv v s).rc4 = s.rc4 := rfl
@[simp] theorem writeCv_status (v) : (writeCv v s).status = s.status := rfl
@[simp] theorem writeCv_port (v) : (writeCv v s).port = s.port := rfl
@[simp] theorem writeCv_responses (v) : (writeCv v s).responses = s.responses := rfl
@[simp] theorem writeCv_calls (v) : (writeCv v s).calls = s.calls := rfl
@[simp] theorem writeCv_orderDraws (v) : (writeCv v s).orderDraws = s.orderDraws := rfl

/-! ### `writeRc4` -/
@[simp] theorem writeRc4_cv (c) : (writeRc4 c s).cv = s.cv := rfl
@[simp] theorem writeRc4_rc4 (c) : (writeRc4 c s).rc4 = c := rfl
@[simp] theorem writeRc4_status (c) : (writeRc4 c s).status = s.status := rfl
@[simp] theorem writeRc4_port (c) : (writeRc4 c s).port = s.port := rfl
@[simp] theorem writeRc4_responses (c) : (writeRc4 c s).responses = s.responses := rfl
@[simp] theorem writeRc4_calls (c) : (writeRc4 c s).calls = s.calls := rfl
@[simp] theorem writeRc4_orderDraws (c) : (writeRc4 c s).orderDraws = s.orderDraws := rfl

/-! ### `setCbcValid` and `setRc4Valid` -/
@[simp] theorem setCbcValid_cv : (setCbcValid s).cv = s.cv := rfl
@[simp] theorem setCbcValid_rc4 : (setCbcValid s).rc4 = s.rc4 := rfl
@[simp] theorem setCbcValid_status : (setCbcValid s).status = s.status ||| 0x01#8 := rfl
@[simp] theorem setCbcValid_port : (setCbcValid s).port = s.port := rfl
@[simp] theorem setCbcValid_responses : (setCbcValid s).responses = s.responses := rfl
@[simp] theorem setCbcValid_calls : (setCbcValid s).calls = s.calls := rfl
@[simp] theorem setCbcValid_orderDraws : (setCbcValid s).orderDraws = s.orderDraws := rfl
@[simp] theorem setRc4Valid_cv : (setRc4Valid s).cv = s.cv := rfl
@[simp] theorem setRc4Valid_rc4 : (setRc4Valid s).rc4 = s.rc4 := rfl
@[simp] theorem setRc4Valid_status : (setRc4Valid s).status = s.status ||| 0x02#8 := rfl
@[simp] theorem setRc4Valid_port : (setRc4Valid s).port = s.port := rfl
@[simp] theorem setRc4Valid_responses : (setRc4Valid s).responses = s.responses := rfl
@[simp] theorem setRc4Valid_calls : (setRc4Valid s).calls = s.calls := rfl
@[simp] theorem setRc4Valid_orderDraws : (setRc4Valid s).orderDraws = s.orderDraws := rfl

/-! ### `recordCalls` and `recordDecCalls` -/
@[simp] theorem recordCalls_cv (cs) : (recordCalls cs s).cv = s.cv := rfl
@[simp] theorem recordCalls_rc4 (cs) : (recordCalls cs s).rc4 = s.rc4 := rfl
@[simp] theorem recordCalls_status (cs) : (recordCalls cs s).status = s.status := rfl
@[simp] theorem recordCalls_port (cs) : (recordCalls cs s).port = s.port := rfl
@[simp] theorem recordCalls_responses (cs) : (recordCalls cs s).responses = s.responses := rfl
@[simp] theorem recordCalls_calls (cs) : (recordCalls cs s).calls = s.calls ++ cs := rfl
@[simp] theorem recordCalls_orderDraws (cs) : (recordCalls cs s).orderDraws = s.orderDraws := rfl
@[simp] theorem recordDecCalls_cv (cs) : (recordDecCalls cs s).cv = s.cv := rfl
@[simp] theorem recordDecCalls_rc4 (cs) : (recordDecCalls cs s).rc4 = s.rc4 := rfl
@[simp] theorem recordDecCalls_status (cs) : (recordDecCalls cs s).status = s.status := rfl
@[simp] theorem recordDecCalls_port (cs) : (recordDecCalls cs s).port = s.port := rfl
@[simp] theorem recordDecCalls_responses (cs) : (recordDecCalls cs s).responses = s.responses := rfl
@[simp] theorem recordDecCalls_orderDraws (cs) : (recordDecCalls cs s).orderDraws = s.orderDraws + 1 := rfl

/-- The calls a `CBC_DEC` records are one `D` of each block, in some order (R49). -/
theorem recordDecCalls_calls (cs : List (List Byte)) :
    ∃ made : List BtCall, (recordDecCalls cs s).calls = s.calls ++ made ∧ made.Perm (cs.map .dec) := by
  refine ⟨_, rfl, ?_⟩
  have h := (Equiv.Perm.ofFn_comp_perm (Config.decOrder s.orderDraws cs.length)
    (fun k : Fin cs.length => BtCall.dec cs[k]))
  refine h.trans (List.Perm.of_eq ?_)
  apply List.ext_getElem <;> simp

/-! ### `answer`, `respondOk` and `raiseErr` -/
@[simp] theorem answer_cv (c r o) : (answer bt c r o s).cv = s.cv := rfl
@[simp] theorem answer_rc4 (c r o) : (answer bt c r o s).rc4 = s.rc4 := rfl
@[simp] theorem answer_status (c r o) : (answer bt c r o s).status = s.status := rfl
@[simp] theorem answer_port (c r o) : (answer bt c r o s).port = s.port := rfl
@[simp] theorem answer_calls (c r o) : (answer bt c r o s).calls = s.calls := rfl
@[simp] theorem answer_orderDraws (c r o) : (answer bt c r o s).orderDraws = s.orderDraws := rfl
@[simp] theorem answer_responses (c r o) :
    (answer bt c r o s).responses = s.responses ++ [⟨responseWord c (blkSz bt) r (readStatus s), o⟩] := rfl

/-! ### `applyReset`, `takeEvent` and `deliverNext` -/
@[simp] theorem applyReset_cv : (applyReset s).cv = State.reset.cv := rfl
@[simp] theorem applyReset_rc4 : (applyReset s).rc4 = State.reset.rc4 := rfl
@[simp] theorem applyReset_status : (applyReset s).status = 0x00#8 := rfl
@[simp] theorem applyReset_port : (applyReset s).port = s.port := rfl
@[simp] theorem applyReset_responses : (applyReset s).responses = s.responses := rfl
@[simp] theorem applyReset_calls : (applyReset s).calls = s.calls := rfl
@[simp] theorem applyReset_orderDraws : (applyReset s).orderDraws = s.orderDraws := rfl

theorem takeEvent_nil (h : s.port = []) : takeEvent s = none := by simp [takeEvent, h]

theorem takeEvent_cons {e rest} (h : s.port = e :: rest) : takeEvent s = some (e, { s with port := rest }) := by
  simp [takeEvent, h]

@[simp] theorem takeEvent_deliverNext (e) : takeEvent (deliverNext e s) = some (e, s) := rfl

/-! ### The flags -/
theorem cbcValid_congr {s t : State} (h : s.status = t.status) : cbcValid s = cbcValid t := by simp [cbcValid, h]
theorem rc4Valid_congr {s t : State} (h : s.status = t.status) : rc4Valid s = rc4Valid t := by simp [rc4Valid, h]
theorem readStatus_congr {s t : State} (h : s.status = t.status) : readStatus s = readStatus t := by
  simp [readStatus, h]

@[simp] theorem cbcValid_writeCv (v) : cbcValid (writeCv v s) = cbcValid s := rfl
@[simp] theorem rc4Valid_writeCv (v) : rc4Valid (writeCv v s) = rc4Valid s := rfl
@[simp] theorem cbcValid_writeRc4 (c) : cbcValid (writeRc4 c s) = cbcValid s := rfl
@[simp] theorem rc4Valid_writeRc4 (c) : rc4Valid (writeRc4 c s) = rc4Valid s := rfl
@[simp] theorem cbcValid_recordCalls (cs) : cbcValid (recordCalls cs s) = cbcValid s := rfl
@[simp] theorem rc4Valid_recordCalls (cs) : rc4Valid (recordCalls cs s) = rc4Valid s := rfl
@[simp] theorem cbcValid_recordDecCalls (cs) : cbcValid (recordDecCalls cs s) = cbcValid s := rfl
@[simp] theorem rc4Valid_recordDecCalls (cs) : rc4Valid (recordDecCalls cs s) = rc4Valid s := rfl
@[simp] theorem cbcValid_answer (c r o) : cbcValid (answer bt c r o s) = cbcValid s := rfl
@[simp] theorem rc4Valid_answer (c r o) : rc4Valid (answer bt c r o s) = rc4Valid s := rfl
@[simp] theorem cbcValid_setCbcValid : cbcValid (setCbcValid s) = true := by simp [cbcValid]
@[simp] theorem rc4Valid_setCbcValid : rc4Valid (setCbcValid s) = rc4Valid s := by simp [rc4Valid]
@[simp] theorem cbcValid_setRc4Valid : cbcValid (setRc4Valid s) = cbcValid s := by simp [cbcValid]
@[simp] theorem rc4Valid_setRc4Valid : rc4Valid (setRc4Valid s) = true := by simp [rc4Valid]

end Sys2Proof.Machine
end

