-- ==== Sys2Proof/Laws/Cbc.lean ====
section
/-! SUPPORT. The two chains of the CBC unit: their blocks one by one, how a chain is split, and that decryption undoes
encryption. -/

namespace Sys2Proof.Machine

variable (bt : BlockTransform)

@[simp] theorem cbcEncBlocks_length (c : List Byte) (ps : List (List Byte)) :
    (cbcEncBlocks bt c ps).length = ps.length := by
  induction ps generalizing c with
  | nil => rfl
  | cons p ps ih => simp [cbcEncBlocks, ih]

@[simp] theorem cbcDecBlocks_length (c : List Byte) (cs : List (List Byte)) :
    (cbcDecBlocks bt c cs).length = cs.length := by
  induction cs generalizing c with
  | nil => rfl
  | cons p ps ih => simp [cbcDecBlocks, ih]

theorem mem_cbcEncBlocks_length {c : List Byte} {ps : List (List Byte)} {u} (hu : u ∈ cbcEncBlocks bt c ps) :
    u.length = bt.size := by
  induction ps generalizing c with
  | nil => simp [cbcEncBlocks] at hu
  | cons p ps ih =>
    rcases List.mem_cons.1 hu with rfl | hu
    · simp
    · exact ih hu

theorem mem_cbcDecBlocks_length {c : List Byte} {cs : List (List Byte)} {u} (hu : u ∈ cbcDecBlocks bt c cs) :
    u.length = bt.size := by
  induction cs generalizing c with
  | nil => simp [cbcDecBlocks] at hu
  | cons p ps ih =>
    rcases List.mem_cons.1 hu with rfl | hu
    · simp
    · exact ih hu

/-- `C_k = E(xorB(P_k, C_(k-1)))` (R92). -/
theorem cbcEncBlocks_getElem (c : List Byte) (ps : List (List Byte)) (k : Nat) (hk : k < ps.length) :
    (cbcEncBlocks bt c ps)[k]'(by simpa using hk) =
      encBlock bt (xorB bt.size ps[k]
        (if _h : k = 0 then c else (cbcEncBlocks bt c ps)[k - 1]'(by simp; omega))) := by
  induction ps generalizing c k with
  | nil => simp at hk
  | cons p ps ih =>
    cases k with
    | zero => rfl
    | succ k =>
      have := ih (encBlock bt (xorB bt.size p c)) k (by simpa using hk)
      simp only [cbcEncBlocks, List.getElem_cons_succ, this]
      cases k <;> simp

/-- `P_k = xorB(D(C_k), C_(k-1))` (R93). -/
theorem cbcDecBlocks_getElem (c : List Byte) (cs : List (List Byte)) (k : Nat) (hk : k < cs.length) :
    (cbcDecBlocks bt c cs)[k]'(by simpa using hk) =
      xorB bt.size (decBlock bt cs[k]) (if _h : k = 0 then c else cs[k - 1]) := by
  induction cs generalizing c k with
  | nil => simp at hk
  | cons p ps ih =>
    cases k with
    | zero => rfl
    | succ k =>
      have := ih p k (by simpa using hk)
      simp only [cbcDecBlocks, List.getElem_cons_succ, this]
      cases k <;> simp

/-- Splitting an encryption: the second part starts from the last ciphertext block of the first (R51). -/
theorem cbcEncBlocks_append (c : List Byte) (ps qs : List (List Byte)) :
    cbcEncBlocks bt c (ps ++ qs) =
      cbcEncBlocks bt c ps ++ cbcEncBlocks bt ((cbcEncBlocks bt c ps).getLastD c) qs := by
  induction ps generalizing c with
  | nil => rfl
  | cons p ps ih => simp only [List.cons_append, cbcEncBlocks, ih, List.getLastD_cons]

/-- Splitting a decryption: the second part starts from the last ciphertext block of the first (R51). -/
theorem cbcDecBlocks_append (c : List Byte) (cs ds : List (List Byte)) :
    cbcDecBlocks bt c (cs ++ ds) = cbcDecBlocks bt c cs ++ cbcDecBlocks bt (cs.getLastD c) ds := by
  induction cs generalizing c with
  | nil => rfl
  | cons p ps ih => simp only [List.cons_append, cbcDecBlocks, ih, List.getLastD_cons]

/-- Decrypting an encryption from the same chaining value gives the plaintext blocks back (R95). -/
theorem cbcDecBlocks_cbcEncBlocks (c : List Byte) {ps : List (List Byte)} (hp : ∀ p ∈ ps, p.length = bt.size) :
    cbcDecBlocks bt c (cbcEncBlocks bt c ps) = ps := by
  induction ps generalizing c with
  | nil => rfl
  | cons p ps ih =>
    rw [cbcEncBlocks, cbcDecBlocks, ih _ fun q hq => hp q (by simp [hq]), decBlock_encBlock bt (by simp),
      xorB_cancel (hp p (by simp))]

end Sys2Proof.Machine
end

