-- ==== Sys2Proof/Laws/Decode.lean ====
section
/-! SUPPORT. The two fields of the command word, and the encoder's word read back (R60). -/

namespace Sys2Proof

theorem opField_toNat (w : Word) : (opField w).toNat = w.toNat / 2 ^ 24 := by
  have := w.isLt
  simp only [opField, BitVec.extractLsb'_toNat, Nat.shiftRight_eq_div_pow]
  omega

theorem lenField_eq (w : Word) : lenField w = w.toNat % 2 ^ 24 := by
  simp [lenField, BitVec.extractLsb'_toNat]

theorem lenField_le (w : Word) : lenField w ≤ maxLen := by
  rw [lenField_eq, maxLen]; omega

theorem encode_toNat {i : Instr} (h : i.WellFormed) : (encode i).1.toNat = (opcodeOf i).toNat * 2 ^ 24 + i.len := by
  have ho := (opcodeOf i).isLt
  have hl : i.len ≤ 2 ^ 24 - 1 := h
  simp only [encode, BitVec.toNat_ofNat]
  omega

theorem opField_encode {i : Instr} (h : i.WellFormed) : opField (encode i).1 = opcodeOf i := by
  have hl : i.len ≤ 2 ^ 24 - 1 := h
  apply BitVec.eq_of_toNat_eq
  rw [opField_toNat, encode_toNat h]
  omega

theorem lenField_encode {i : Instr} (h : i.WellFormed) : lenField (encode i).1 = i.len := by
  have hl : i.len ≤ 2 ^ 24 - 1 := h
  rw [lenField_eq, encode_toNat h]
  omega

/-- What an opcode selects has that opcode and that buffer. -/
theorem instrOfOp_some {op : Byte} {x : List Byte} {i : Instr} (h : instrOfOp op x = some i) :
    opcodeOf i = op ∧ i.input = x := by
  unfold instrOfOp at h
  repeat' split at h
  all_goals first | (cases h; exact ⟨Eq.symm ‹_›, rfl⟩) | cases h

theorem decode_of_instrOfOp {c : Command} {i : Instr} (h : instrOfOp (opField c.word) c.input = some i) :
    decode c = .ok i := by simp [decode, h]

theorem decode_of_instrOfOp_none {c : Command} (h : instrOfOp (opField c.word) c.input = none) :
    decode c = .error (.illegalOpcode (opField c.word)) := by simp [decode, h]

theorem commandOf_ok {w : Word} {x : List Byte} (h : x.length = lenField w) : commandOf w x = .ok ⟨w, x, h⟩ := by
  rw [commandOf, dif_pos h]

/-- The mask of R63 keeps the opcode and nothing else. -/
theorem masked_word (w : Word) : w &&& 0xFF000000#32 = BitVec.ofNat 32 ((opField w).toNat * 2 ^ 24) := by
  have hm : ∀ i, i < 32 → (0xFF000000#32).getLsbD i = decide (24 ≤ i) := by decide
  apply BitVec.eq_of_getLsbD_eq
  intro i hi
  rw [BitVec.getLsbD_and, hm i hi, BitVec.getLsbD_ofNat, Nat.testBit_mul_two_pow, opField, BitVec.extractLsb'_toNat,
    Nat.testBit_mod_two_pow, Nat.testBit_shiftRight]
  by_cases h : 24 ≤ i
  · have h8 : i - 24 < 8 := by omega
    have h24 : 24 + (i - 24) = i := by omega
    simp [h, hi, h8, h24, BitVec.getLsbD]
  · simp [h]

/-- A delivered command carries its buffer into what it decodes to. -/
theorem decode_ok {c : Command} {i : Instr} (h : decode c = .ok i) : opcodeOf i = opField c.word ∧ i.input = c.input := by
  unfold decode at h
  split at h
  · cases h; exact instrOfOp_some ‹_›
  · cases h

end Sys2Proof
end

