-- ==== Sys2Proof/Laws/Ops.lean ====
section
/-! SUPPORT. The shared operations, each said once: the response word as the number of R138 and its fields, what a checked
command does, and what each check says. -/

namespace Sys2Proof.Machine

/-! ### The response word -/

/-- The response word is `CODE * 2^24 + BLK * 2^16 + REM * 2^8 + STAT` (R138). -/
theorem responseWord_toNat (c b r t : Byte) :
    (responseWord c b r t).toNat = c.toNat * 2 ^ 24 + b.toNat * 2 ^ 16 + r.toNat * 2 ^ 8 + t.toNat := by
  have hc := c.isLt
  have hb := b.isLt
  have hr := r.isLt
  have ht := t.isLt
  simp only [responseWord, BitVec.toNat_append]
  rw [← Nat.shiftLeft_add_eq_or_of_lt (by simpa using ht), ← Nat.shiftLeft_add_eq_or_of_lt (by simpa using hr),
    ← Nat.shiftLeft_add_eq_or_of_lt (by simpa using hb)]
  simp only [Nat.shiftLeft_eq]
  omega

/-- A field of a word as a number. -/
theorem toNat_extract (w : Word) (lo : Nat) : (w.extractLsb' lo 8).toNat = w.toNat / 2 ^ lo % 256 := by
  simp [BitVec.extractLsb'_toNat, Nat.shiftRight_eq_div_pow]

@[simp] theorem rspCode_mk (c b r t : Byte) (o : List Byte) : rspCode ⟨responseWord c b r t, o⟩ = c.toNat := by
  have := c.isLt; have := b.isLt; have := r.isLt; have := t.isLt
  rw [rspCode, toNat_extract, responseWord_toNat]; omega

@[simp] theorem rspBlk_mk (c b r t : Byte) (o : List Byte) : rspBlk ⟨responseWord c b r t, o⟩ = b.toNat := by
  have := c.isLt; have := b.isLt; have := r.isLt; have := t.isLt
  rw [rspBlk, toNat_extract, responseWord_toNat]; omega

@[simp] theorem rspRem_mk (c b r t : Byte) (o : List Byte) : rspRem ⟨responseWord c b r t, o⟩ = r.toNat := by
  have := c.isLt; have := b.isLt; have := r.isLt; have := t.isLt
  rw [rspRem, toNat_extract, responseWord_toNat]; omega

@[simp] theorem rspStat_mk (c b r t : Byte) (o : List Byte) : rspStat ⟨responseWord c b r t, o⟩ = t.toNat := by
  have := c.isLt; have := b.isLt; have := r.isLt; have := t.isLt
  rw [rspStat, toNat_extract, responseWord_toNat]; omega

/-- The upper three fields of a response do not depend on `STAT` (R34). -/
theorem upper_responseWord (c b r t t' : Byte) :
    (responseWord c b r t).extractLsb' 8 24 = (responseWord c b r t').extractLsb' 8 24 := by
  have := t.isLt; have := t'.isLt
  apply BitVec.eq_of_toNat_eq
  simp only [BitVec.extractLsb'_toNat, Nat.shiftRight_eq_div_pow, responseWord_toNat]
  omega

@[simp] theorem blkSz_toNat (bt : BlockTransform) : (blkSz bt).toNat = bt.size := by
  have := bt.size_le
  simp only [blkSz, BitVec.toNat_ofNat]; omega

@[simp] theorem bt_size : Config.bt.size = Config.blockSize := rfl

theorem blockSize_pos : 0 < Config.blockSize := Config.bt.one_le_size

theorem blockSize_le : Config.blockSize ≤ 255 := Config.bt.size_le

/-- `STATUS` reads as the number its two flags make (R25). -/
theorem readStatus_toNat (s : State) : (readStatus s).toNat = statusNumber s := by
  have key : ∀ v : Byte, (v &&& 0x03#8).toNat = (if v.getLsbD 0 then 1 else 0) + (if v.getLsbD 1 then 2 else 0) := by
    decide +kernel
  simpa [readStatus, statusNumber, cbcValid, rc4Valid] using key s.status

theorem statusNumber_congr {s t : State} (h : s.status = t.status) : statusNumber s = statusNumber t := by
  simp [statusNumber, cbcValid_congr h, rc4Valid_congr h]

/-- An answer is one response with the word of R138, and nothing else. -/
theorem answer_eq_answered (c r : Byte) (out : List Byte) (s : State) :
    answer Config.bt c r out s = answered c.toNat r.toNat out s := by
  have h : responseWord c (blkSz Config.bt) r (readStatus s) = BitVec.ofNat 32 (rspNumber c.toNat r.toNat s) := by
    apply BitVec.eq_of_toNat_eq
    have hw := (responseWord c (blkSz Config.bt) r (readStatus s)).isLt
    rw [responseWord_toNat, blkSz_toNat, readStatus_toNat, bt_size] at hw
    rw [responseWord_toNat, blkSz_toNat, readStatus_toNat, bt_size, BitVec.toNat_ofNat, rspNumber, Nat.mod_eq_of_lt hw]
  simp [answer, answered, h]

theorem respondOk_eq_answered (out : List Byte) (s : State) : respondOk Config.bt out s = answered 0 0 out s :=
  answer_eq_answered ..

theorem raiseErr_eq_answered (e : CmdError) (s : State) :
    raiseErr Config.bt e s = answered (errCode e).toNat (errRem e).toNat [] s :=
  answer_eq_answered ..

/-! ### A checked command -/

@[simp] theorem runChecked_some (bt : BlockTransform) (e : CmdError) (f) (s : State) :
    runChecked bt (some e) f s = raiseErr bt e s := rfl

@[simp] theorem runChecked_none (bt : BlockTransform) (f) (s : State) :
    runChecked bt none f s = respondOk bt (f s).2 (f s).1 := rfl

theorem needCbc_eq (s : State) : needCbc s = if cbcValid s then none else some .noCtx := rfl
theorem needRc4_eq (s : State) : needRc4 s = if rc4Valid s then none else some .noCtx := rfl

theorem needWholeBlocks_none {bt : BlockTransform} {n : Nat} (h : n % bt.size = 0) : needWholeBlocks bt n = none :=
  if_pos h

theorem needWholeBlocks_some {bt : BlockTransform} {n : Nat} (h : n % bt.size ≠ 0) :
    needWholeBlocks bt n = some (.misaligned (n % bt.size)) := if_neg h

theorem needOneBlock_none {bt : BlockTransform} {n : Nat} (h : n = bt.size) : needOneBlock bt n = none := if_pos h

theorem needOneBlock_some {bt : BlockTransform} {n : Nat} (h : n ≠ bt.size) : needOneBlock bt n = some .ivLen := if_neg h

theorem needKeyLength_none {n : Nat} (h₁ : 5 ≤ n) (h₂ : n ≤ 32) : needKeyLength n = none := if_neg (by omega)

theorem needKeyLength_some {n : Nat} (h : n < 5 ∨ 32 < n) : needKeyLength n = some .keySize := if_pos h

@[simp] theorem firstError_some (e : CmdError) (b) : firstError (some e) b = some e := rfl
@[simp] theorem firstError_none (b) : firstError none b = b := rfl

/-- The remainder of a misaligned length fits the `REM` field (R136, D6). -/
theorem errRem_misaligned (n : Nat) : (errRem (.misaligned (n % Config.blockSize))).toNat = n % Config.blockSize := by
  have h₁ := Nat.mod_lt n blockSize_pos
  have h₂ := blockSize_le
  simp only [errRem, BitVec.toNat_ofNat]; omega

/-- Every error has the code of R132 and no other. -/
theorem errCode_pos_le (e : CmdError) : 0 < (errCode e).toNat ∧ (errCode e).toNat ≤ 5 := by cases e <;> simp [errCode]

end Sys2Proof.Machine
end

