-- ==== Sys2Proof/Laws/Exec.lean ====
section
/-! SUPPORT. What `exec` can do, said once: every command is a check and an effect. Proofs over all commands split these
two functions, not `exec`. -/

namespace Sys2Proof.Machine

/-- The checks a command makes, in their order (R66 steps 2 and 3). -/
def checkOf : Instr → State → Option CmdError
  | .nop _, _ => none
  | .ecbEnc x, _ => needWholeBlocks Config.bt x.length
  | .ecbDec x, _ => needWholeBlocks Config.bt x.length
  | .cbcLdiv x, _ => needOneBlock Config.bt x.length
  | .cbcEnc x, s => firstError (needCbc s) (needWholeBlocks Config.bt x.length)
  | .cbcDec x, s => firstError (needCbc s) (needWholeBlocks Config.bt x.length)
  | .rc4Ksa x, _ => needKeyLength x.length
  | .rc4Prga _, s => needRc4 s

/-- What a command does once its checks have passed (R66 step 4): the state after and the output. -/
def effectOf : Instr → State → State × List Byte
  | .nop _, s => (s, [])
  | .ecbEnc x, s => ecbEncEffect Config.bt x s
  | .ecbDec x, s => ecbDecEffect Config.bt x s
  | .cbcLdiv x, s => cbcLdivEffect Config.bt x s
  | .cbcEnc x, s => cbcEncEffect Config.bt x s
  | .cbcDec x, s => cbcDecEffect Config.bt x s
  | .rc4Ksa x, s => rc4KsaEffect x s
  | .rc4Prga x, s => rc4PrgaEffect x s

/-- Every command is its checks and its effect, run by the one shared operation. -/
theorem exec_eq (i : Instr) (s : State) :
    exec i s = .next (runChecked Config.bt (checkOf i s) (effectOf i) s) := by cases i <;> rfl

/-- A command whose checks pass is answered `OK` with the output of its effect. -/
theorem exec_ok {i : Instr} {s : State} (h : checkOf i s = none) :
    exec i s = .next (answered 0 0 (effectOf i s).2 (effectOf i s).1) := by
  rw [exec_eq, h, runChecked_none, respondOk_eq_answered]

/-- A command that fails a check is answered with that error, and nothing else happens. -/
theorem exec_err {i : Instr} {s : State} {e : CmdError} (h : checkOf i s = some e) :
    exec i s = .next (answered (errCode e).toNat (errRem e).toNat [] s) := by
  rw [exec_eq, h, runChecked_some, raiseErr_eq_answered]

@[simp] theorem effectOf_responses (i : Instr) (s : State) : (effectOf i s).1.responses = s.responses := by
  cases i <;>
    simp [effectOf, ecbEncEffect, ecbDecEffect, cbcLdivEffect, cbcEncEffect, cbcDecEffect, rc4KsaEffect, rc4PrgaEffect]

@[simp] theorem effectOf_port (i : Instr) (s : State) : (effectOf i s).1.port = s.port := by
  cases i <;>
    simp [effectOf, ecbEncEffect, ecbDecEffect, cbcLdivEffect, cbcEncEffect, cbcDecEffect, rc4KsaEffect, rc4PrgaEffect]

theorem effectOf_with_responses (i : Instr) (s : State) (rs : List Response) :
    effectOf i { s with responses := rs } = ({ (effectOf i s).1 with responses := rs }, (effectOf i s).2) := by
  cases i <;>
    simp [effectOf, ecbEncEffect, ecbDecEffect, cbcLdivEffect, cbcEncEffect, cbcDecEffect, rc4KsaEffect,
      rc4PrgaEffect, writeCv, writeRc4, recordCalls, recordDecCalls, setCbcValid, setRc4Valid]

/-- A command whose checks pass, as one that runs. -/
theorem runs_ok {i : Instr} {s : State} (h : checkOf i s = none) :
    Runs i s (answered 0 0 (effectOf i s).2 (effectOf i s).1)
      ⟨BitVec.ofNat 32 (rspNumber 0 0 (effectOf i s).1), (effectOf i s).2⟩ :=
  ⟨exec_ok h, by simp [answered]⟩

/-- A command that fails a check, as one that runs. -/
theorem runs_err {i : Instr} {s : State} {e : CmdError} (h : checkOf i s = some e) :
    Runs i s (answered (errCode e).toNat (errRem e).toNat [] s)
      ⟨BitVec.ofNat 32 (rspNumber (errCode e).toNat (errRem e).toNat s), []⟩ :=
  ⟨exec_err h, rfl⟩

/-! ### When the checks of each command pass, and what they report -/

theorem checkOf_ecbEnc_ok {x : List Byte} (s : State) (h : x.length % Config.blockSize = 0) :
    checkOf (.ecbEnc x) s = none := needWholeBlocks_none h

theorem checkOf_ecbEnc_len {x : List Byte} (s : State) (h : x.length % Config.blockSize ≠ 0) :
    checkOf (.ecbEnc x) s = some (.misaligned (x.length % Config.blockSize)) := needWholeBlocks_some h

theorem checkOf_ecbDec_ok {x : List Byte} (s : State) (h : x.length % Config.blockSize = 0) :
    checkOf (.ecbDec x) s = none := needWholeBlocks_none h

theorem checkOf_ecbDec_len {x : List Byte} (s : State) (h : x.length % Config.blockSize ≠ 0) :
    checkOf (.ecbDec x) s = some (.misaligned (x.length % Config.blockSize)) := needWholeBlocks_some h

theorem checkOf_cbcLdiv_ok {x : List Byte} (s : State) (h : x.length = Config.blockSize) :
    checkOf (.cbcLdiv x) s = none := needOneBlock_none h

theorem checkOf_cbcLdiv_len {x : List Byte} (s : State) (h : x.length ≠ Config.blockSize) :
    checkOf (.cbcLdiv x) s = some .ivLen := needOneBlock_some h

theorem checkOf_cbcEnc_noCtx (x : List Byte) {s : State} (hv : cbcValid s = false) :
    checkOf (.cbcEnc x) s = some .noCtx := by simp [checkOf, needCbc_eq, hv]

theorem checkOf_cbcEnc_valid (x : List Byte) {s : State} (hv : cbcValid s = true) :
    checkOf (.cbcEnc x) s = needWholeBlocks Config.bt x.length := by simp [checkOf, needCbc_eq, hv]

theorem checkOf_cbcEnc_ok {x : List Byte} {s : State} (hv : cbcValid s = true) (h : x.length % Config.blockSize = 0) :
    checkOf (.cbcEnc x) s = none := (checkOf_cbcEnc_valid x hv).trans (needWholeBlocks_none h)

theorem checkOf_cbcEnc_len {x : List Byte} {s : State} (hv : cbcValid s = true) (h : x.length % Config.blockSize ≠ 0) :
    checkOf (.cbcEnc x) s = some (.misaligned (x.length % Config.blockSize)) :=
  (checkOf_cbcEnc_valid x hv).trans (needWholeBlocks_some h)

theorem checkOf_cbcDec_noCtx (x : List Byte) {s : State} (hv : cbcValid s = false) :
    checkOf (.cbcDec x) s = some .noCtx := by simp [checkOf, needCbc_eq, hv]

theorem checkOf_cbcDec_valid (x : List Byte) {s : State} (hv : cbcValid s = true) :
    checkOf (.cbcDec x) s = needWholeBlocks Config.bt x.length := by simp [checkOf, needCbc_eq, hv]

theorem checkOf_cbcDec_ok {x : List Byte} {s : State} (hv : cbcValid s = true) (h : x.length % Config.blockSize = 0) :
    checkOf (.cbcDec x) s = none := (checkOf_cbcDec_valid x hv).trans (needWholeBlocks_none h)

theorem checkOf_cbcDec_len {x : List Byte} {s : State} (hv : cbcValid s = true) (h : x.length % Config.blockSize ≠ 0) :
    checkOf (.cbcDec x) s = some (.misaligned (x.length % Config.blockSize)) :=
  (checkOf_cbcDec_valid x hv).trans (needWholeBlocks_some h)

theorem checkOf_rc4Ksa_ok {key : List Byte} (s : State) (h₁ : 5 ≤ key.length) (h₂ : key.length ≤ 32) :
    checkOf (.rc4Ksa key) s = none := needKeyLength_none h₁ h₂

theorem checkOf_rc4Ksa_len {key : List Byte} (s : State) (h : key.length < 5 ∨ 32 < key.length) :
    checkOf (.rc4Ksa key) s = some .keySize := needKeyLength_some h

theorem checkOf_rc4Prga_noCtx (x : List Byte) {s : State} (hv : rc4Valid s = false) :
    checkOf (.rc4Prga x) s = some .noCtx := by simp [checkOf, needRc4_eq, hv]

theorem checkOf_rc4Prga_ok (x : List Byte) {s : State} (hv : rc4Valid s = true) : checkOf (.rc4Prga x) s = none := by
  simp [checkOf, needRc4_eq, hv]

/-- The checks read `STATUS` alone (R66). -/
theorem checkOf_congr {s t : State} (i : Instr) (h : s.status = t.status) : checkOf i s = checkOf i t := by
  cases i <;> simp [checkOf, needCbc_eq, needRc4_eq, cbcValid_congr h, rc4Valid_congr h]

/-- The checks as `(CODE, REM)` are those of R66. -/
theorem checkOf_checksOf (i : Instr) (s : State) :
    checksOf i s = match checkOf i s with
      | none => (0, 0)
      | some e => ((errCode e).toNat, (errRem e).toNat) := by
  have hm : ∀ n : Nat, (if n % Config.blockSize ≠ 0 then (4, n % Config.blockSize) else (0, 0)) =
      match needWholeBlocks Config.bt n with
      | none => (0, 0)
      | some e => ((errCode e).toNat, (errRem e).toNat) := by
    intro n
    by_cases h : n % Config.blockSize = 0
    · rw [needWholeBlocks_none h]; simp [h]
    · rw [needWholeBlocks_some h]; simp [h, errRem_misaligned, errCode]
  have hc : ∀ n : Nat,
      (if cbcValid s = false then (2, 0)
        else if n % Config.blockSize ≠ 0 then (4, n % Config.blockSize) else (0, 0)) =
      match firstError (needCbc s) (needWholeBlocks Config.bt n) with
      | none => (0, 0)
      | some e => ((errCode e).toNat, (errRem e).toNat) := by
    intro n
    rw [needCbc_eq]
    cases cbcValid s
    · rfl
    · simpa using hm n
  cases i with
  | nop x => rfl
  | ecbEnc x => exact hm x.length
  | ecbDec x => exact hm x.length
  | cbcLdiv x =>
    by_cases h : x.length = Config.blockSize
    · simp only [checksOf, checkOf]; rw [needOneBlock_none h]; simp [h]
    · simp only [checksOf, checkOf]; rw [needOneBlock_some h]; simp [h, errCode, errRem]
  | cbcEnc x => exact hc x.length
  | cbcDec x => exact hc x.length
  | rc4Ksa x =>
    by_cases h : x.length < 5 ∨ 32 < x.length
    · simp only [checksOf, checkOf, needKeyLength_some h]; simp [h, errCode, errRem]
    · simp only [checksOf, checkOf, needKeyLength, if_neg h]
  | rc4Prga x =>
    simp only [checksOf, checkOf, needRc4_eq]
    cases rc4Valid s <;> rfl

end Sys2Proof.Machine
end

