-- ==== Sys2Proof/Laws/Listing.lean ====
section
/-! SUPPORT. The pseudo-instructions (R74): the commands of `RC4_KEYSTREAM` one by one. -/

namespace Sys2Proof.Machine

theorem len_rc4Prga_zeros (k : Nat) : (Instr.rc4Prga (List.replicate k 0#8)).len = k := by
  simp [Instr.len, Instr.input]

/-- Every command of `RC4_KEYSTREAM n` is `RC4_PRGA` on zeros that one command can carry. -/
theorem mem_prgaZeros {n : Nat} {i : Instr} (hi : i ∈ prgaZeros n) :
    ∃ k, k ≤ maxLen ∧ i = .rc4Prga (List.replicate k 0#8) := by
  rw [prgaZeros, List.mem_append, List.mem_replicate, List.mem_singleton] at hi
  rcases hi with ⟨_, rfl⟩ | rfl
  · exact ⟨maxLen, Nat.le_refl _, rfl⟩
  · refine ⟨_, ?_, rfl⟩
    have hpos : 0 < maxLen := by simp [maxLen]
    have h₁ := Nat.div_add_mod (n - 1) maxLen
    have h₂ := Nat.mod_lt (n - 1) hpos
    rw [Nat.mul_comm] at h₁
    omega

/-- The lengths of the commands of `RC4_KEYSTREAM n` sum to `n`. -/
theorem sum_len_prgaZeros (n : Nat) : ((prgaZeros n).map Instr.len).sum = n := by
  have h := Nat.div_mul_le_self (n - 1) maxLen
  rw [prgaZeros, List.map_append, List.sum_append, List.map_replicate, List.sum_replicate, len_rc4Prga_zeros,
    List.map_singleton, List.sum_singleton, len_rc4Prga_zeros, smul_eq_mul]
  omega

end Sys2Proof.Machine
end

