-- ==== Sys2Proof/Laws/PerInstr.lean ====
section
/-! SUPPORT. Facts about every command as syntax, one lemma for each constructor. -/

/-- The opcode of a command selects it again, with its whole buffer (R63). -/
def Sys2Proof.Laws.OpcodeSelects.Statement (i : Sys2Proof.Instr) : Prop :=
  Sys2Proof.instrOfOp (Sys2Proof.opcodeOf i) i.input = some i

namespace Sys2Proof.Laws.OpcodeSelects

theorem nop (input : List Byte) : Statement (.nop input) := rfl
theorem ecbEnc (input : List Byte) : Statement (.ecbEnc input) := rfl
theorem ecbDec (input : List Byte) : Statement (.ecbDec input) := rfl
theorem cbcLdiv (input : List Byte) : Statement (.cbcLdiv input) := rfl
theorem cbcEnc (input : List Byte) : Statement (.cbcEnc input) := rfl
theorem cbcDec (input : List Byte) : Statement (.cbcDec input) := rfl
theorem rc4Ksa (input : List Byte) : Statement (.rc4Ksa input) := rfl
theorem rc4Prga (input : List Byte) : Statement (.rc4Prga input) := rfl

end Sys2Proof.Laws.OpcodeSelects
end

