-- ==== Sys2Proof/Laws/Rc4.lean ====
section
/-! SUPPORT. The RC4 unit: exchanging entries keeps a permutation, the shuffle step by step, and generation as the
repeated advance of the context. -/

namespace Sys2Proof.Machine

/-! ### The array -/

theorem sAt_sSwap (S : Vector Byte 256) (a b x : Byte) :
    sAt (sSwap S a b) x = if x = a then sAt S b else if x = b then sAt S a else sAt S x := by
  simp only [sAt, sSwap, Vector.getElem_swap, BitVec.toNat_inj]

/-- The exchange of R14. -/
theorem swapped_sSwap (S : Vector Byte 256) (a b : Byte) : Swapped S (sSwap S a b) a b := by
  refine ⟨by simp [sAt_sSwap], ?_, fun x hx hy => by simp [sAt_sSwap, hx, hy]⟩
  rw [sAt_sSwap]; split <;> simp_all

/-- Exchanging two entries keeps a permutation (R29). -/
theorem isPermutation_sSwap {S : Vector Byte 256} (h : IsPermutation S) (a b : Byte) : IsPermutation (sSwap S a b) := by
  intro v
  have hp : (sSwap S a b).toList.Perm S.toList := (Vector.swap_perm a.isLt b.isLt).toList
  rw [hp.count_eq]; exact h v

theorem sAt_sIdentity (x : Byte) : sAt sIdentity x = x := by simp [sAt, sIdentity]

/-- The identity is a permutation. -/
theorem isPermutation_sIdentity : IsPermutation sIdentity := by
  have hl : sIdentity.toList = (List.finRange 256).map fun n => BitVec.ofNat 8 n.val := by
    apply List.ext_getElem <;> simp [sIdentity]
  have hn : sIdentity.toList.Nodup := by
    rw [hl]
    refine (List.nodup_finRange 256).map fun a b hab => ?_
    have := congrArg BitVec.toNat hab
    simp only [BitVec.toNat_ofNat] at this
    omega
  intro v
  refine List.count_eq_one_of_mem hn ?_
  rw [hl]
  exact List.mem_map.2 ⟨⟨v.toNat, v.isLt⟩, List.mem_finRange _, by simp⟩

/-! ### Key scheduling -/

/-- `S` and `kj` after the first `n` steps of the shuffle. -/
def ksaAt (key : List Byte) (n : Nat) : Vector Byte 256 × Byte :=
  (List.range n).foldl (ksaStep key) (sIdentity, 0x00#8)

@[simp] theorem ksaAt_zero (key : List Byte) : ksaAt key 0 = (sIdentity, 0x00#8) := rfl

theorem ksaAt_succ (key : List Byte) (n : Nat) : ksaAt key (n + 1) = ksaStep key (ksaAt key n) n := by
  simp [ksaAt, List.range_succ]

theorem ksaShuffle_eq (key : List Byte) : ksaShuffle key = (ksaAt key 256).1 := rfl

theorem isPermutation_ksaAt (key : List Byte) (n : Nat) : IsPermutation (ksaAt key n).1 := by
  induction n with
  | zero => exact isPermutation_sIdentity
  | succ n ih => rw [ksaAt_succ]; exact isPermutation_sSwap ih _ _

/-- Key scheduling leaves a permutation (R29). -/
theorem isPermutation_ksaShuffle (key : List Byte) : IsPermutation (ksaShuffle key) :=
  ksaShuffle_eq key ▸ isPermutation_ksaAt key 256

/-- The shuffle goes through the trace of R106. -/
theorem ksaTrace_ksaAt (key : List Byte) : KsaTrace key (fun n => (ksaAt key n).1) (fun n => (ksaAt key n).2) := by
  refine ⟨fun x => sAt_sIdentity x, rfl, fun n _ => ⟨?_, ?_⟩⟩
  · simp only [ksaAt_succ, ksaStep, keyByte, add8]
  · simp only [ksaAt_succ, ksaStep]; exact swapped_sSwap ..

/-! ### Generation -/

/-- The context after `n` advances. -/
def prgaAt (c : Rc4Ctx) : Nat → Rc4Ctx
  | 0 => c
  | n + 1 => prgaAdvance (prgaAt c n)

theorem prgaAt_prgaAdvance (c : Rc4Ctx) (n : Nat) : prgaAt (prgaAdvance c) n = prgaAt c (n + 1) := by
  induction n with
  | zero => rfl
  | succ n ih => simp [prgaAt, ih]

/-- The context generation leaves depends on the length of the buffer alone (R108 (a)). -/
theorem prgaRun_fst (c : Rc4Ctx) (xs : List Byte) : (prgaRun c xs).1 = prgaAt c xs.length := by
  induction xs generalizing c with
  | nil => rfl
  | cons x xs ih => simp [prgaRun, ih, prgaAt_prgaAdvance]

@[simp] theorem prgaRun_snd_length (c : Rc4Ctx) (xs : List Byte) : (prgaRun c xs).2.length = xs.length := by
  induction xs generalizing c with
  | nil => rfl
  | cons x xs ih => simp [prgaRun, ih]

/-- `OUT[t] = IN[t] xor K_t` (R108). -/
theorem prgaRun_snd_getElem (c : Rc4Ctx) (xs : List Byte) (t : Nat) (ht : t < xs.length) :
    (prgaRun c xs).2[t]'(by simpa using ht) = xs[t] ^^^ prgaByte (prgaAt c (t + 1)) := by
  induction xs generalizing c t with
  | nil => simp at ht
  | cons x xs ih =>
    cases t with
    | zero => rfl
    | succ t => simp [prgaRun, ih _ t (by simpa using ht), prgaAt_prgaAdvance]

/-- Continuity: a buffer may be split anywhere (R51, R109 (b)). -/
theorem prgaRun_append (c : Rc4Ctx) (xs ys : List Byte) :
    prgaRun c (xs ++ ys) =
      ((prgaRun (prgaRun c xs).1 ys).1, (prgaRun c xs).2 ++ (prgaRun (prgaRun c xs).1 ys).2) := by
  induction xs generalizing c with
  | nil => rfl
  | cons x xs ih => simp [prgaRun, ih]

theorem isPermutation_prgaAt {c : Rc4Ctx} (h : IsPermutation c.s) (n : Nat) : IsPermutation (prgaAt c n).s := by
  induction n with
  | zero => exact h
  | succ n ih => exact isPermutation_sSwap ih _ _

/-- Generation goes through the trace of R108. -/
theorem prgaTrace_prgaAt (c : Rc4Ctx) (len : Nat) :
    PrgaTrace len (prgaAt c) (fun t => prgaByte (prgaAt c (t + 1))) :=
  fun _ _ => ⟨rfl, rfl, swapped_sSwap .., rfl⟩

theorem prgaAt_i (c : Rc4Ctx) (n : Nat) : (prgaAt c n).i = c.i + BitVec.ofNat 8 n := by
  induction n with
  | zero => simp [prgaAt]
  | succ n ih =>
    show (prgaAt c n).i + 1#8 = _
    rw [ih, BitVec.add_assoc]
    congr 1
    apply BitVec.eq_of_toNat_eq
    simp

end Sys2Proof.Machine
end

