-- ==== Sys2Proof/Laws/Step.lean ====
section
/-! SUPPORT. What one step can do, said once, and that no command sees what is still on the port. -/

namespace Sys2Proof.Machine

/-- The four things a step can be: idle, a reset, a command executed, or an illegal word answered. -/
theorem step_cases {s t : State} (h : step s = .next t) :
    (s.port = [] ∧ t = s) ∨
    (∃ rest, s.port = .reset :: rest ∧ t = applyReset { s with port := rest }) ∨
    (∃ c rest i, s.port = .command c :: rest ∧ decode c = .ok i ∧ exec i { s with port := rest } = .next t) ∨
    (∃ c rest e, s.port = .command c :: rest ∧ decode c = .error e ∧ t = answerIllegal { s with port := rest }) := by
  unfold step at h
  cases hp : s.port with
  | nil => rw [takeEvent_nil s hp] at h; cases h; exact .inl ⟨rfl, rfl⟩
  | cons e rest =>
    rw [takeEvent_cons s hp] at h
    cases e with
    | reset => cases h; exact .inr (.inl ⟨rest, rfl, rfl⟩)
    | command c =>
      dsimp only at h
      cases hd : decode c with
      | ok i => rw [hd] at h; exact .inr (.inr (.inl ⟨c, rest, i, rfl, hd, h⟩))
      | error e => rw [hd] at h; cases h; exact .inr (.inr (.inr ⟨c, rest, e, rfl, hd, rfl⟩))

theorem checkOf_port (i : Instr) (s : State) (p : List HostEvent) : checkOf i { s with port := p } = checkOf i s := by
  cases i <;> rfl

theorem effectOf_with_port (i : Instr) (s : State) (p : List HostEvent) :
    effectOf i { s with port := p } = ({ (effectOf i s).1 with port := p }, (effectOf i s).2) := by
  cases i <;>
    simp [effectOf, ecbEncEffect, ecbDecEffect, cbcLdivEffect, cbcEncEffect, cbcDecEffect, rc4KsaEffect,
      rc4PrgaEffect, writeCv, writeRc4, recordCalls, recordDecCalls, setCbcValid, setRc4Valid]

/-- A command does the same whatever is still on the port, and leaves it there. -/
theorem exec_with_port {i : Instr} {s t : State} (p : List HostEvent) (h : exec i s = .next t) :
    exec i { s with port := p } = .next { t with port := p } := by
  cases hc : checkOf i s with
  | none =>
    rw [exec_ok hc] at h
    cases h
    rw [exec_ok ((checkOf_port i s p).trans hc), effectOf_with_port]
    rfl
  | some e =>
    rw [exec_err hc] at h
    cases h
    rw [exec_err ((checkOf_port i s p).trans hc)]
    rfl

end Sys2Proof.Machine
end

