-- ==== Sys2Proof/Tests/Slice0.lean ====
section
/-! SUPPORT. The model's own tests: words written out from the spec's encoding, the spec's vectors under its fixture TOY4,
and a witness for the hypotheses of each statement. -/

namespace Sys2Proof.Tests

open Sys2Proof.Machine

/-! ### Well-formedness: the one check refuses a buffer of 2^24 bytes, and takes one byte less -/

theorem test_wf_refuses_too_long : ¬ (Instr.nop (List.replicate 16777216 0#8)).WellFormed := by
  show ¬ (List.replicate 16777216 0#8).length ≤ maxLen
  rw [List.length_replicate]
  decide

theorem test_wf_takes_longest : (Instr.rc4Prga (List.replicate maxLen 0#8)).WellFormed := by
  show (List.replicate maxLen 0#8).length ≤ maxLen
  rw [List.length_replicate]

/-! ### Decoding: `OP` in bits 31:24 and `LEN` in bits 23:0, written out bit by bit (R60, R63) -/

theorem test_decode_nop : decodeParts 0b00000000_000000000000000000000010#32 [0xaa#8, 0xbb#8] = .ok (.nop [0xaa#8, 0xbb#8]) := by
  decide
theorem test_decode_ecbEnc : decodeParts 0b00010000_000000000000000000000001#32 [0x7f#8] = .ok (.ecbEnc [0x7f#8]) := by
  decide
theorem test_decode_ecbDec : decodeParts 0b00010001_000000000000000000000001#32 [0x7f#8] = .ok (.ecbDec [0x7f#8]) := by
  decide
theorem test_decode_cbcLdiv : decodeParts 0b00100000_000000000000000000000001#32 [0xa0#8] = .ok (.cbcLdiv [0xa0#8]) := by
  decide
theorem test_decode_cbcEnc : decodeParts 0b00100001_000000000000000000000000#32 [] = .ok (.cbcEnc []) := by decide
theorem test_decode_cbcDec : decodeParts 0b00100010_000000000000000000000001#32 [0xff#8] = .ok (.cbcDec [0xff#8]) := by
  decide
theorem test_decode_rc4Ksa :
    decodeParts 0b00110000_000000000000000000000101#32 [1#8, 2#8, 3#8, 4#8, 5#8] =
      .ok (.rc4Ksa [1#8, 2#8, 3#8, 4#8, 5#8]) := by decide
theorem test_decode_rc4Prga :
    decodeParts 0b00110001_000000000000000000000010#32 [0#8, 9#8] = .ok (.rc4Prga [0#8, 9#8]) := by decide
/-- V-SYS-6 to V-SYS-9: the neighbours of the legal opcodes are illegal, not aliases (R64). -/
theorem test_decode_illegal :
    [0x01000000#32, 0x12000000#32, 0x23000000#32, 0x32000000#32, 0xFF000000#32].map (fun w => decodeParts w []) =
      [.error (.illegalOpcode 0x01#8), .error (.illegalOpcode 0x12#8), .error (.illegalOpcode 0x23#8),
        .error (.illegalOpcode 0x32#8), .error (.illegalOpcode 0xFF#8)] := by decide
theorem test_decode_length_mismatch : decodeParts 0x11000002#32 [0#8] = .error (.lengthMismatch 2 1) := by decide
theorem test_decodeTableWord : decodeTableWord 32 0x31000002 = some (.rc4Prga [0#8, 0#8]) := by decide
/-- P1 line 2: the encoding of a line is its word and its buffer. -/
theorem test_encode :
    encode (.ecbEnc [0#8, 1#8, 2#8, 3#8, 0#8, 1#8, 2#8, 3#8]) =
      (0x10000008#32, [0#8, 1#8, 2#8, 3#8, 0#8, 1#8, 2#8, 3#8]) := by decide
theorem test_takeCommand_drops_illegal_buffer :
    (takeCommand 0x12000002#32 [0xaa#8, 0xbb#8, 0xcc#8]).map (fun p => (p.1.input, p.2)) =
      some ([0xaa#8, 0xbb#8], [0xcc#8]) := by decide

/-! ### Commands under TOY4 -/

/-- The spec's fixture TOY4 (95_test_vectors.md section 0): `B = 4`, bytes rotated and a constant added to each. -/
def toy4 : BlockTransform where
  size := 4
  one_le_size := by decide
  size_le := by decide
  perm :=
    { toFun := fun x => #v[x[1] + 0x11#8, x[2] + 0x22#8, x[3] + 0x33#8, x[0] + 0x44#8]
      invFun := fun y => #v[y[3] - 0x44#8, y[0] - 0x11#8, y[1] - 0x22#8, y[2] - 0x33#8]
      left_inv := by intro x; ext i hi; interval_cases i <;> simp
      right_inv := by intro y; ext i hi; interval_cases i <;> simp }

/-- After reset, with `CV` loaded. -/
def withCv (cv : List Byte) : State := { State.reset with cv := cv, status := 0x01#8 }

/-- After reset, with an RC4 context. -/
def withRc4 (c : Rc4Ctx) : State := { State.reset with rc4 := c, status := 0x02#8 }

/-- Section 0, spot values of TOY4. -/
theorem test_toy4_spots :
    encBlock toy4 [0x00#8, 0x01#8, 0x02#8, 0x03#8] = [0x12#8, 0x24#8, 0x36#8, 0x44#8] ∧
    decBlock toy4 [0x00#8, 0x00#8, 0x00#8, 0x00#8] = [0xbc#8, 0xef#8, 0xde#8, 0xcd#8] := by decide
/-- V-SYS-2: the buffer is dropped. -/
theorem test_nop : (nopOn toy4 [0xaa#8, 0xbb#8] State.reset).responses = [⟨0x00040000#32, []⟩] := by decide
/-- V-SYS-3: `STAT` shows both flags. -/
theorem test_nop_status :
    (nopOn toy4 [] { State.reset with status := 0x03#8 }).responses = [⟨0x00040003#32, []⟩] := by decide
/-- V-ECB-1. -/
theorem test_ecbEnc :
    (ecbEncOn toy4 [0#8, 1#8, 2#8, 3#8, 0#8, 1#8, 2#8, 3#8] State.reset).responses =
      [⟨0x00040000#32, [0x12#8, 0x24#8, 0x36#8, 0x44#8, 0x12#8, 0x24#8, 0x36#8, 0x44#8]⟩] := by decide
/-- V-ECB-7. -/
theorem test_ecbEnc_misaligned : (ecbEncOn toy4 [0#8, 1#8, 2#8] State.reset).responses = [⟨0x04040300#32, []⟩] := by
  decide
/-- V-ECB-4. -/
theorem test_ecbDec :
    (ecbDecOn toy4 [0x12#8, 0x24#8, 0x35#8, 0x44#8, 0x12#8, 0x24#8, 0x35#8, 0x44#8] State.reset).responses =
      [⟨0x00040000#32, [0#8, 1#8, 2#8, 2#8, 0#8, 1#8, 2#8, 2#8]⟩] := by decide
/-- V-ECB-6. -/
theorem test_ecbDec_misaligned :
    (ecbDecOn toy4 [0x12#8, 0x24#8, 0x35#8, 0x44#8, 0x12#8, 0x24#8] State.reset).responses = [⟨0x04040200#32, []⟩] := by
  decide
/-- V-CBC-1. -/
theorem test_cbcLdiv :
    let t := cbcLdivOn toy4 [0xa0#8, 0xa1#8, 0xa2#8, 0xa3#8] State.reset
    t.cv = [0xa0#8, 0xa1#8, 0xa2#8, 0xa3#8] ∧ t.responses = [⟨0x00040001#32, []⟩] := by decide
/-- V-CBC-1b. -/
theorem test_cbcLdiv_wrong_length :
    (cbcLdivOn toy4 [0xa0#8, 0xa1#8, 0xa2#8, 0xa3#8, 0xa4#8] State.reset).responses = [⟨0x05040000#32, []⟩] := by decide
/-- V-CBC-3. -/
theorem test_cbcEnc :
    let t := cbcEncOn toy4 [0x00#8, 0x01#8, 0x02#8, 0x03#8, 0x00#8, 0x01#8, 0x02#8, 0x03#8, 0x10#8, 0x20#8, 0x30#8, 0x40#8]
      (withCv [0xa0#8, 0xa1#8, 0xa2#8, 0xa3#8])
    t.cv = [0xe4#8, 0x4c#8, 0xe8#8, 0x08#8] ∧
    t.responses = [⟨0x00040001#32,
      [0xb1#8, 0xc2#8, 0xd3#8, 0xe4#8, 0xd4#8, 0xf3#8, 0x1a#8, 0xf5#8, 0xe4#8, 0x4c#8, 0xe8#8, 0x08#8]⟩] := by decide
/-- V-CBC-5b: the `CV` is kept. -/
theorem test_cbcEnc_misaligned :
    let t := cbcEncOn toy4 [1#8, 2#8, 3#8, 4#8, 5#8] (withCv [0xe4#8, 0x4c#8, 0xe8#8, 0x08#8])
    t.cv = [0xe4#8, 0x4c#8, 0xe8#8, 0x08#8] ∧ t.responses = [⟨0x04040101#32, []⟩] := by decide
/-- V-CBC-12, third command: the decryption starts from the `CV` the encryption left. -/
theorem test_cbcDec :
    let t := cbcDecOn toy4 [0xb1#8, 0xc2#8, 0xd3#8, 0xe4#8, 0xd4#8, 0xf3#8, 0x1a#8, 0xf5#8]
      (withCv [0xd4#8, 0xf3#8, 0x1a#8, 0xf5#8])
    t.cv = [0xd4#8, 0xf3#8, 0x1a#8, 0xf5#8] ∧
    t.responses = [⟨0x00040001#32, [0x74#8, 0x53#8, 0xba#8, 0x55#8, 0x00#8, 0x01#8, 0x02#8, 0x03#8]⟩] := by decide
/-- V-SYS-11: `ERR_NOCTX` comes before `ERR_LEN`. -/
theorem test_cbcDec_context_first :
    (cbcDecOn toy4 [0#8, 1#8, 2#8, 3#8, 4#8] State.reset).responses = [⟨0x02040000#32, []⟩] := by decide
/-- V-RC4-1, the trace: `kj` after the first four steps. -/
theorem test_ksa_trace :
    (ksaAt [1#8, 2#8, 3#8, 4#8, 5#8] 4).2 = 0x0c#8 ∧ sAt (ksaAt [1#8, 2#8, 3#8, 4#8, 5#8] 4).1 3#8 = 0x0c#8 := by
  decide +kernel
/-- V-RC4-9: 33 bytes are too many. -/
theorem test_rc4Ksa_too_long :
    (rc4KsaOn toy4 (List.replicate 33 1#8) State.reset).responses = [⟨0x03040000#32, []⟩] := by decide
/-- V-RC4-2: the first four keystream bytes of the key `0102030405`, through the whole key schedule. -/
theorem test_rc4_keystream :
    (prgaRun (ksaContext [1#8, 2#8, 3#8, 4#8, 5#8]) [0#8, 0#8, 0#8, 0#8]).2 = [0xb2#8, 0x39#8, 0x63#8, 0x05#8] := by
  decide +kernel
/-- R108 (f) on the identity: with `I = 1` and `J = 1` the swap changes nothing and `K = S[1 + 1]`. -/
theorem test_rc4Prga :
    let t := rc4PrgaOn toy4 [0xf0#8] (withRc4 ⟨sIdentity, 0x00#8, 0x00#8⟩)
    t.rc4.i = 1#8 ∧ t.rc4.j = 1#8 ∧ t.responses = [⟨0x00040002#32, [0xf2#8]⟩] := by decide +kernel
/-- V-RC4-9: no context after reset. -/
theorem test_rc4Prga_noctx : (rc4PrgaOn toy4 [0#8] State.reset).responses = [⟨0x02040000#32, []⟩] := by decide

/-! ### Steps -/

theorem test_step_runs_fetch_word :
    step (State.reset.withFetchWord 32 0x31000003) = exec (.rc4Prga [0#8, 0#8, 0#8]) State.reset := rfl
/-- V-SYS-5: an illegal word is answered, with nothing written. -/
theorem test_step_illegal :
    (match step (State.reset.withFetchWord 32 0x01000002) with
      | .next t => t.status == 0x00#8 && t.responses.map Response.out == [[]] && t.port == []
      | _ => false) = true := by decide
/-- P5 line 13: a reset between commands clears both flags. -/
theorem test_step_reset :
    (match step { State.reset with status := 0x03#8, port := [.reset] } with
      | .next t => t.status == 0x00#8 && t.responses == []
      | _ => false) = true := by decide
/-- P6 line 1: the word of `RC4_KSA "Secret"`. -/
theorem test_listing_line :
    (lineCommands 4 (.command .rc4Ksa (.ascii ['S', 'e', 'c', 'r', 'e', 't']))).map encode =
      [(0x30000006#32, [0x53#8, 0x65#8, 0x63#8, 0x72#8, 0x65#8, 0x74#8])] := by decide

/-! ### Witnesses: states and operands that meet the hypotheses of the statements -/

/-- One block of a byte: a buffer of exactly `B` bytes. -/
def oneBlock (v : Byte) : List Byte := List.replicate Config.blockSize v

@[simp] theorem oneBlock_length (v : Byte) : (oneBlock v).length = Config.blockSize := List.length_replicate ..

theorem oneBlock_whole (v : Byte) : (oneBlock v).length % Config.blockSize = 0 := by simp

theorem oneBlock_count (v : Byte) : (oneBlock v).length / Config.blockSize = 1 := by
  rw [oneBlock_length, Nat.div_self blockSize_pos]

theorem oneBlock_ne : blk Config.blockSize (oneBlock 0#8) 0 ≠ blk Config.blockSize (oneBlock 1#8) 0 := by
  have hb := blockSize_pos
  intro h
  have h0 := congrArg (fun l : List Byte => l.getD 0 0#8) h
  simp [blk, memRead, oneBlock, hb] at h0

/-- Bytes of the commands that the steps below take. -/
def exampleCommand : Command := ⟨0x31000001#32, [7#8], by decide⟩

theorem witness_stepKeepsRegisterInvariant : RegistersOk State.reset ∧ step State.reset = .next State.reset :=
  ⟨⟨fun h => absurd h (by decide), fun h => absurd h (by decide), rfl⟩, rfl⟩
theorem witness_stepRunsDecodedCommand :
    ({ State.reset with port := [.command exampleCommand] } : State).port = [.command exampleCommand] ∧
    decode exampleCommand = .ok (.rc4Prga [7#8]) := by decide
theorem witness_stepWithoutEvent : State.reset.port = [] := rfl
theorem witness_stepTakesResetEvent : ({ State.reset with port := [.reset] } : State).port = [.reset] := rfl
/-- The legal opcodes at both ends of the map, and the illegal ones next to them. -/
theorem witness_illegalOpcode :
    let legal := [0x00#8, 0x10#8, 0x11#8, 0x20#8, 0x21#8, 0x22#8, 0x30#8, 0x31#8]
    opField 0x01000000#32 ∉ legal ∧ opField 0x32000000#32 ∉ legal ∧ opField 0x00FFFFFF#32 ∈ legal ∧
    opField 0x31FFFFFF#32 ∈ legal := by decide
theorem witness_runAnswersEveryCommand :
    ({ State.reset with port := [.command exampleCommand, .reset] } : State).port =
      [exampleCommand].map HostEvent.command ++ [.reset] ∧
    [exampleCommand].map decode = [Instr.rc4Prga [7#8]].map Except.ok := by decide
theorem witness_wellFormed_ends : (Instr.nop []).WellFormed ∧ (Instr.rc4Prga (List.replicate maxLen 0#8)).WellFormed :=
  ⟨by decide, test_wf_takes_longest⟩
theorem witness_encodeUndoesDecode : decodeParts 0x31000001#32 [7#8] = .ok (.rc4Prga [7#8]) := by decide
theorem witness_streamGivesUp :
    [1#8, 2#8].length = lenField 0x12000002#32 ∧ [1#8].length < lenField 0x12000002#32 := by decide
/-- Whole blocks: none and one. -/
theorem witness_wholeBlocks :
    ([] : List Byte).length % Config.blockSize = 0 ∧ (oneBlock 5#8).length % Config.blockSize = 0 := by simp
/-- A misaligned length exists under every configuration but `B = 1`, where every length is a multiple of `B`. -/
theorem witness_misaligned (h : Config.blockSize ≠ 1) : [5#8].length % Config.blockSize ≠ 0 := by
  have := blockSize_pos
  rw [List.length_singleton, Nat.mod_eq_of_lt (by omega)]
  decide
theorem witness_misaligned_toy4 :
    [1#8, 2#8, 3#8, 4#8, 5#8].length % toy4.size ≠ 0 ∧ [1#8, 2#8, 3#8].length % toy4.size ≠ 0 := by decide
theorem witness_ecbOutputFollowsBlockOrder :
    (oneBlock 5#8).length % Config.blockSize = 0 ∧
    ∀ k, k < (oneBlock 5#8).length / Config.blockSize → (fun k => k) k < (oneBlock 5#8).length / Config.blockSize ∧
      blk Config.blockSize (oneBlock 5#8) k = blk Config.blockSize (oneBlock 5#8) ((fun k => k) k) :=
  ⟨oneBlock_whole _, fun _ hk => ⟨hk, rfl⟩⟩
/-- One block changed: the hypotheses of the statements about changing one block, for `m = 0`. -/
theorem witness_oneBlockChanged :
    (oneBlock 0#8).length % Config.blockSize = 0 ∧ (oneBlock 1#8).length = (oneBlock 0#8).length ∧
    0 < (oneBlock 0#8).length / Config.blockSize ∧
    blk Config.blockSize (oneBlock 0#8) 0 ≠ blk Config.blockSize (oneBlock 1#8) 0 ∧
    (∀ k, k < (oneBlock 0#8).length / Config.blockSize → k ≠ 0 →
      blk Config.blockSize (oneBlock 0#8) k = blk Config.blockSize (oneBlock 1#8) k) ∧
    (∀ k, 0 < k → k < (oneBlock 0#8).length / Config.blockSize →
      blk Config.blockSize (oneBlock 0#8) k = blk Config.blockSize (oneBlock 1#8) k) := by
  refine ⟨oneBlock_whole _, by simp, by rw [oneBlock_count]; decide, oneBlock_ne, ?_, ?_⟩ <;>
    (intro k; rw [oneBlock_count]; omega)
/-- The first of two blocks changed: the hypotheses of the clause of R95 (d) about block `m + 1`, for `m = 0`, the last
block that has one after it. -/
theorem witness_firstOfTwoBlocksChanged :
    let p := oneBlock 0#8 ++ oneBlock 0#8
    let q := oneBlock 1#8 ++ oneBlock 0#8
    cbcValid (withCv (oneBlock 7#8)) = true ∧ p.length % Config.blockSize = 0 ∧ q.length = p.length ∧
    0 + 1 < p.length / Config.blockSize ∧ blk Config.blockSize p 0 ≠ blk Config.blockSize q 0 ∧
    ∀ k, k < p.length / Config.blockSize → k ≠ 0 → blk Config.blockSize p k = blk Config.blockSize q k := by
  have hc : (oneBlock 0#8 ++ oneBlock 0#8).length / Config.blockSize = 2 := by
    rw [List.length_append, oneBlock_length, ← Nat.two_mul, Nat.mul_div_cancel _ blockSize_pos]
  refine ⟨by decide, by simp, by simp, by rw [hc]; decide, ?_, fun k _ h0 => ?_⟩
  · rw [blk_append_zero (oneBlock_length _), blk_append_zero (oneBlock_length _)]
    intro h
    exact oneBlock_ne (congrArg (blk Config.blockSize · 0) h)
  · obtain ⟨k, rfl⟩ := Nat.exists_eq_succ_of_ne_zero h0
    rw [blk_append_succ (oneBlock_length _), blk_append_succ (oneBlock_length _)]
/-- An IV of `B` bytes, and the lengths on both sides of it. -/
theorem witness_cbcLdiv :
    (oneBlock 5#8).length = Config.blockSize ∧ (5#8 :: oneBlock 5#8).length ≠ Config.blockSize ∧
    ([] : List Byte).length ≠ Config.blockSize := by
  have := blockSize_pos
  refine ⟨oneBlock_length _, ?_, ?_⟩
  · rw [List.length_cons, oneBlock_length]; omega
  · rw [List.length_nil]; omega
theorem witness_cbcContext : cbcValid State.reset = false ∧ cbcValid (withCv (oneBlock 7#8)) = true := by decide
theorem witness_cbcBlocks :
    cbcValid (withCv (oneBlock 7#8)) = true ∧ (oneBlock 5#8).length % Config.blockSize = 0 ∧
    0 < (oneBlock 5#8).length / Config.blockSize := by
  refine ⟨by decide, oneBlock_whole _, ?_⟩
  rw [oneBlock_count]
  decide
theorem witness_splitBuffer :
    (oneBlock 5#8).length % Config.blockSize = 0 ∧ ([] : List Byte).length % Config.blockSize = 0 ∧
    ¬ (Instr.rc4Prga [] ≠ Instr.rc4Prga []) := by simp
/-- The shortest and the longest key, and the lengths next to them (R106). -/
theorem witness_keyLengths :
    (5 ≤ (List.replicate 5 1#8).length ∧ (List.replicate 5 1#8).length ≤ 32) ∧
    (5 ≤ (List.replicate 32 1#8).length ∧ (List.replicate 32 1#8).length ≤ 32) ∧
    (List.replicate 4 1#8).length < 5 ∧ 32 < (List.replicate 33 1#8).length := by decide
/-- V-RC4-8: the two zero keys have the same repetition. -/
theorem witness_keyRepetition (n : Nat) :
    (List.replicate 5 0#8).getD (n % 5) 0#8 = (List.replicate 32 0#8).getD (n % 32) 0#8 := by
  have h (m k : Nat) : (List.replicate m 0#8).getD k 0#8 = 0#8 := by
    rw [List.getD_eq_getElem?_getD, List.getElem?_replicate]
    split <;> rfl
  rw [h, h]
theorem witness_rc4Context :
    rc4Valid State.reset = false ∧ rc4Valid (withRc4 ⟨sIdentity, 0#8, 0#8⟩) = true ∧
    (List.replicate 256 0#8).length = 256 := by
  refine ⟨by decide, by decide, List.length_replicate ..⟩
theorem witness_pseudoInstructions : (0 : Nat) ≤ 16777215 ∧ 16777215 ≤ 16777215 ∧ [1#8, 2#8].length = 2 := by decide
theorem witness_prefixed : (oneBlock 9#8).length = Config.blockSize ∧ (oneBlock 5#8).length % Config.blockSize = 0 :=
  ⟨oneBlock_length _, oneBlock_whole _⟩
theorem witness_failedCommand :
    checksOf (.cbcDec []) State.reset ≠ (0, 0) ∧ checksOf (.rc4Ksa [1#8]) State.reset ≠ (0, 0) := by decide
theorem witness_everyCommandHasOneResponse :
    ({ State.reset with port := [.command exampleCommand] } : State).port = [.command exampleCommand] := rfl
theorem witness_unitsDoNotInteract : State.reset.responses = [] := rfl
/-- Two states that differ in every register that holds no value. -/
theorem witness_unwrittenRegisters :
    SameButUnwritten State.reset { State.reset with cv := [1#8], rc4 := ⟨sIdentity, 3#8, 4#8⟩ } ∧
    step State.reset = .next State.reset :=
  ⟨⟨rfl, rfl, rfl, rfl, rfl, fun h => absurd h (by decide), fun h => absurd h (by decide)⟩, rfl⟩

end Sys2Proof.Tests
end

section
/-! What a step answers, one equation for each thing the port can hold next, and the two statements about a single step
that follow from them: a step always answers a next state, and it runs the instruction the delivered command decodes
to. -/

namespace Sys2Proof.Machine

/-! ### `step`, by what is next on the port -/

theorem step_of_port_nil {s : State} (hp : s.port = []) : step s = .next s := by
  rw [step, takeEvent_nil s hp]

theorem step_of_port_reset {s : State} {rest : List HostEvent} (hp : s.port = .reset :: rest) :
    step s = .next (applyReset { s with port := rest }) := by
  rw [step, takeEvent_cons s hp]

theorem step_of_port_command {s : State} {c : Command} {rest : List HostEvent} {i : Instr}
    (hp : s.port = .command c :: rest) (hd : decode c = .ok i) : step s = exec i { s with port := rest } := by
  simp only [step, takeEvent_cons s hp, hd]

theorem step_of_port_illegal {s : State} {c : Command} {rest : List HostEvent} {e : DecodeError}
    (hp : s.port = .command c :: rest) (hd : decode c = .error e) :
    step s = .next (answerIllegal { s with port := rest }) := by
  simp only [step, takeEvent_cons s hp, hd]

/-! ### The statements about one step -/

/-- Settles O5, by the equation of `step` for a command that decodes. -/
theorem stepRunsDecodedCommand : Obligations.StepRunsDecodedCommand :=
  fun _ _ _ _ hp hd => step_of_port_command hp hd

/-- Settles O4, by cases on what is next on the port. A command that decodes ends in a next state because every command
is its checks and its effect run by the one shared operation (`exec_eq`). -/
theorem stepAlwaysAnswersNext : Obligations.StepAlwaysAnswersNext := by
  intro s
  cases hp : s.port with
  | nil => exact ⟨_, step_of_port_nil hp⟩
  | cons event rest =>
    cases event with
    | reset => exact ⟨_, step_of_port_reset hp⟩
    | command c =>
      cases hd : decode c with
      | ok i => exact ⟨_, (step_of_port_command hp hd).trans (exec_eq i _)⟩
      | error e => exact ⟨_, step_of_port_illegal hp hd⟩

end Sys2Proof.Machine
end

section
/-! What a command leaves and answers, as functions of the command and the state: `nextOf` and `responseOf`. A command is
its body (the effect where the checks pass, nothing where one fails) and one answer; the statements about all commands
are about the body. -/

namespace Sys2Proof.Machine

/-- The state a command leaves. -/
def nextOf (i : Instr) (s : State) : State := runChecked Config.bt (checkOf i s) (effectOf i) s

/-- `CODE` and `REM` of the answer to a command (R132). -/
def verdictOf (i : Instr) (s : State) : Byte × Byte :=
  match checkOf i s with
  | none => (codeOk, 0x00#8)
  | some e => (errCode e, errRem e)

/-- What a command has done and put out when it is answered: its effect, or nothing where a check fails (R140). -/
def bodyOf (i : Instr) (s : State) : State × List Byte :=
  match checkOf i s with
  | none => effectOf i s
  | some _ => (s, [])

/-- The answer to a command (R138). -/
def responseOf (i : Instr) (s : State) : Response :=
  ⟨responseWord (verdictOf i s).1 (blkSz Config.bt) (verdictOf i s).2 (readStatus (bodyOf i s).1), (bodyOf i s).2⟩

theorem exec_eq_nextOf (i : Instr) (s : State) : exec i s = .next (nextOf i s) := exec_eq i s

theorem bodyOf_ok {i : Instr} {s : State} (h : checkOf i s = none) : bodyOf i s = effectOf i s := by
  simp only [bodyOf, h]

theorem bodyOf_err {i : Instr} {s : State} {e : CmdError} (h : checkOf i s = some e) : bodyOf i s = (s, []) := by
  simp only [bodyOf, h]

/-- What holds of the state before and is kept by the effect holds of the body. -/
theorem bodyOf_of_effectOf {P : State → Prop} {i : Instr} {s : State} (hs : P s)
    (he : checkOf i s = none → P (effectOf i s).1) : P (bodyOf i s).1 := by
  cases hc : checkOf i s with
  | none => rw [bodyOf_ok hc]; exact he hc
  | some e => rw [bodyOf_err hc]; exact hs

/-- What the effect and an error each have the same in two states that pass the same checks, the body has the same. -/
theorem bodyOf_congr {α : Type} (f : State × List Byte → α) {i : Instr} {s t : State}
    (hcheck : checkOf i s = checkOf i t) (herr : f (s, []) = f (t, []))
    (hok : f (effectOf i s) = f (effectOf i t)) : f (bodyOf i s) = f (bodyOf i t) := by
  cases hc : checkOf i s with
  | none => rw [bodyOf_ok hc, bodyOf_ok (hcheck ▸ hc), hok]
  | some e => rw [bodyOf_err hc, bodyOf_err (hcheck ▸ hc), herr]

/-- A command is its body and then one answer. -/
theorem nextOf_eq_answer (i : Instr) (s : State) :
    nextOf i s = answer Config.bt (verdictOf i s).1 (verdictOf i s).2 (bodyOf i s).2 (bodyOf i s).1 := by
  cases hc : checkOf i s with
  | none => rw [bodyOf_ok hc]; simp only [nextOf, verdictOf, hc]; rfl
  | some e => rw [bodyOf_err hc]; simp only [nextOf, verdictOf, hc]; rfl

@[simp] theorem nextOf_cv (i : Instr) (s : State) : (nextOf i s).cv = (bodyOf i s).1.cv := by rw [nextOf_eq_answer]; rfl
@[simp] theorem nextOf_rc4 (i : Instr) (s : State) : (nextOf i s).rc4 = (bodyOf i s).1.rc4 := by
  rw [nextOf_eq_answer]; rfl
@[simp] theorem nextOf_status (i : Instr) (s : State) : (nextOf i s).status = (bodyOf i s).1.status := by
  rw [nextOf_eq_answer]; rfl
@[simp] theorem nextOf_port (i : Instr) (s : State) : (nextOf i s).port = (bodyOf i s).1.port := by
  rw [nextOf_eq_answer]; rfl
@[simp] theorem nextOf_calls (i : Instr) (s : State) : (nextOf i s).calls = (bodyOf i s).1.calls := by
  rw [nextOf_eq_answer]; rfl
@[simp] theorem nextOf_orderDraws (i : Instr) (s : State) : (nextOf i s).orderDraws = (bodyOf i s).1.orderDraws := by
  rw [nextOf_eq_answer]; rfl

theorem nextOf_responses (i : Instr) (s : State) : (nextOf i s).responses = s.responses ++ [responseOf i s] := by
  have hb : (bodyOf i s).1.responses = s.responses :=
    bodyOf_of_effectOf (P := fun t => t.responses = s.responses) rfl fun _ => effectOf_responses i s
  rw [nextOf_eq_answer, answer_responses, hb, responseOf]

/-- Every command runs, to the state `nextOf` and the answer `responseOf`. -/
theorem runs_nextOf (i : Instr) (s : State) : Runs i s (nextOf i s) (responseOf i s) :=
  ⟨exec_eq_nextOf i s, nextOf_responses i s⟩

end Sys2Proof.Machine
end

section
/-! What the effect of each command leaves unchanged, the flag it sets, and the calls of the transform it makes; and the
statements O48, O49 and O47 about all commands, which follow. -/

namespace Sys2Proof.Machine

/-! ### The effect of each command -/

section
variable (x : List Byte) (s : State)

@[simp] theorem effectOf_nop : effectOf (.nop x) s = (s, []) := rfl
@[simp] theorem effectOf_ecbEnc : effectOf (.ecbEnc x) s =
    (recordCalls ((blocks Config.blockSize x).map .enc) s,
      ((blocks Config.blockSize x).map (encBlock Config.bt)).flatten) := rfl
@[simp] theorem effectOf_ecbDec : effectOf (.ecbDec x) s =
    (recordCalls ((blocks Config.blockSize x).map .dec) s,
      ((blocks Config.blockSize x).map (decBlock Config.bt)).flatten) := rfl
@[simp] theorem effectOf_cbcLdiv : effectOf (.cbcLdiv x) s =
    (setCbcValid (writeCv (memRead x 0 Config.blockSize) s), []) := rfl
@[simp] theorem effectOf_cbcEnc : effectOf (.cbcEnc x) s =
    (writeCv ((cbcEncBlocks Config.bt s.cv (blocks Config.blockSize x)).getLastD s.cv)
        (recordCalls (cbcEncCalls Config.bt s.cv (blocks Config.blockSize x)
          (cbcEncBlocks Config.bt s.cv (blocks Config.blockSize x))) s),
      (cbcEncBlocks Config.bt s.cv (blocks Config.blockSize x)).flatten) := rfl
@[simp] theorem effectOf_cbcDec : effectOf (.cbcDec x) s =
    (writeCv ((blocks Config.blockSize x).getLastD s.cv) (recordDecCalls (blocks Config.blockSize x) s),
      (cbcDecBlocks Config.bt s.cv (blocks Config.blockSize x)).flatten) := rfl
@[simp] theorem effectOf_rc4Ksa : effectOf (.rc4Ksa x) s = (setRc4Valid (writeRc4 (ksaContext x) s), []) := rfl
@[simp] theorem effectOf_rc4Prga : effectOf (.rc4Prga x) s =
    (writeRc4 (prgaRun s.rc4 x).1 s, (prgaRun s.rc4 x).2) := rfl

end

/-! ### The frame (R28) -/

theorem effectOf_cv_of_unitOf_ne {i : Instr} (h : unitOf i ≠ some .cbc) (s : State) : (effectOf i s).1.cv = s.cv := by
  cases i with
  | cbcLdiv | cbcEnc | cbcDec => exact absurd rfl h
  | _ => simp

theorem effectOf_rc4_of_unitOf_ne {i : Instr} (h : unitOf i ≠ some .rc4) (s : State) :
    (effectOf i s).1.rc4 = s.rc4 := by
  cases i with
  | rc4Ksa | rc4Prga => exact absurd rfl h
  | _ => simp

theorem effectOf_calls_of_not_blockMode {i : Instr} (henc : ∀ x, i ≠ .cbcEnc x) (hdec : ∀ x, i ≠ .cbcDec x)
    (hecb : unitOf i ≠ some .ecb) (s : State) : (effectOf i s).1.calls = s.calls := by
  cases i with
  | ecbEnc | ecbDec => exact absurd rfl hecb
  | cbcEnc x => exact absurd rfl (henc x)
  | cbcDec x => exact absurd rfl (hdec x)
  | _ => simp

theorem effectOf_orderDraws_of_ne_cbcDec {i : Instr} (h : ∀ x, i ≠ .cbcDec x) (s : State) :
    (effectOf i s).1.orderDraws = s.orderDraws := by
  cases i with
  | cbcDec x => exact absurd rfl (h x)
  | _ => simp

/-- The bit of `STATUS` a command sets once its checks have passed (R25, R91, R106). -/
def flagOf : Instr → Byte
  | .cbcLdiv _ => 0x01#8
  | .rc4Ksa _ => 0x02#8
  | _ => 0x00#8

theorem effectOf_status (i : Instr) (s : State) : (effectOf i s).1.status = s.status ||| flagOf i := by
  cases i <;> simp [flagOf]

theorem flagOf_of_not_setUp {i : Instr} (hiv : ∀ x, i ≠ .cbcLdiv x) (hkey : ∀ x, i ≠ .rc4Ksa x) :
    flagOf i = 0x00#8 := by
  cases i with
  | cbcLdiv x => exact absurd rfl (hiv x)
  | rc4Ksa x => exact absurd rfl (hkey x)
  | _ => rfl

theorem bodyOf_cv_of_unitOf_ne {i : Instr} (h : unitOf i ≠ some .cbc) (s : State) : (bodyOf i s).1.cv = s.cv :=
  bodyOf_of_effectOf (P := fun t => t.cv = s.cv) rfl fun _ => effectOf_cv_of_unitOf_ne h s

theorem bodyOf_rc4_of_unitOf_ne {i : Instr} (h : unitOf i ≠ some .rc4) (s : State) : (bodyOf i s).1.rc4 = s.rc4 :=
  bodyOf_of_effectOf (P := fun t => t.rc4 = s.rc4) rfl fun _ => effectOf_rc4_of_unitOf_ne h s

theorem bodyOf_port (i : Instr) (s : State) : (bodyOf i s).1.port = s.port :=
  bodyOf_of_effectOf (P := fun t => t.port = s.port) rfl fun _ => effectOf_port i s

/-- Settles O48: each field is left by the effect of every command that may not write it, and by an error. -/
theorem commandsWriteOnlyTheirUnitsRegisters : Obligations.CommandsWriteOnlyTheirUnitsRegisters := by
  intro i s
  refine ⟨nextOf i s, responseOf i s, runs_nextOf i s, ?_, ?_, ?_, ?_, ?_, ?_⟩
  · rw [nextOf_port, bodyOf_port]
  · intro h
    rw [nextOf_cv, bodyOf_cv_of_unitOf_ne h]
  · intro h
    rw [nextOf_rc4, bodyOf_rc4_of_unitOf_ne h]
  · intro hiv hkey
    rw [nextOf_status]
    refine bodyOf_of_effectOf (P := fun t => t.status = s.status) rfl fun _ => ?_
    rw [effectOf_status, flagOf_of_not_setUp hiv hkey, BitVec.or_zero]
  · intro henc hdec hecb
    rw [nextOf_calls]
    exact bodyOf_of_effectOf (P := fun t => t.calls = s.calls) rfl fun _ =>
      effectOf_calls_of_not_blockMode henc hdec hecb s
  · intro h
    rw [nextOf_orderDraws]
    exact bodyOf_of_effectOf (P := fun t => t.orderDraws = s.orderDraws) rfl fun _ =>
      effectOf_orderDraws_of_ne_cbcDec h s

/-! ### The flags (R25) -/

theorem flagOf_getLsbD_zero (i : Instr) : (flagOf i).getLsbD 0 = true ↔ ∃ x, i = .cbcLdiv x := by
  cases i <;> simp [flagOf]

theorem flagOf_getLsbD_one (i : Instr) : (flagOf i).getLsbD 1 = true ↔ ∃ x, i = .rc4Ksa x := by
  cases i <;> simp [flagOf]

theorem flagOf_reserved (i : Instr) : flagOf i &&& 0xFC#8 = 0#8 := by
  cases i <;> simp [flagOf]

/-- The reserved bits of `STATUS` stay as they are. -/
theorem effectOf_status_reserved (i : Instr) (s : State) :
    (effectOf i s).1.status &&& 0xFC#8 = s.status &&& 0xFC#8 := by
  rw [effectOf_status, BitVec.and_or_distrib_right, flagOf_reserved, BitVec.or_zero]

theorem checkOf_cbcLdiv_eq_none (x : List Byte) (s : State) :
    checkOf (.cbcLdiv x) s = none ↔ x.length = Config.blockSize :=
  ⟨fun h => by_contra fun hx => by simp [checkOf_cbcLdiv_len s hx] at h, checkOf_cbcLdiv_ok s⟩

theorem checkOf_rc4Ksa_eq_none (x : List Byte) (s : State) :
    checkOf (.rc4Ksa x) s = none ↔ 5 ≤ x.length ∧ x.length ≤ 32 := by
  simp [checkOf, needKeyLength]

/-- A bit of `STATUS` after a command is the bit before or the one a successful command sets. -/
theorem status_nextOf_getLsbD (i : Instr) (s : State) (n : Nat) :
    (nextOf i s).status.getLsbD n = true ↔
      s.status.getLsbD n = true ∨ checkOf i s = none ∧ (flagOf i).getLsbD n = true := by
  rw [nextOf_status]
  cases hc : checkOf i s with
  | none => simp [bodyOf_ok hc, effectOf_status]
  | some e => simp [bodyOf_err hc]

theorem cbcValid_nextOf (i : Instr) (s : State) :
    cbcValid (nextOf i s) = true ↔ cbcValid s = true ∨ ∃ x, i = .cbcLdiv x ∧ x.length = Config.blockSize := by
  refine (status_nextOf_getLsbD i s 0).trans (or_congr_right ?_)
  rw [flagOf_getLsbD_zero]
  constructor
  · rintro ⟨hc, x, rfl⟩
    exact ⟨x, rfl, (checkOf_cbcLdiv_eq_none x s).1 hc⟩
  · rintro ⟨x, rfl, hx⟩
    exact ⟨(checkOf_cbcLdiv_eq_none x s).2 hx, x, rfl⟩

theorem rc4Valid_nextOf (i : Instr) (s : State) :
    rc4Valid (nextOf i s) = true ↔ rc4Valid s = true ∨ ∃ x, i = .rc4Ksa x ∧ 5 ≤ x.length ∧ x.length ≤ 32 := by
  refine (status_nextOf_getLsbD i s 1).trans (or_congr_right ?_)
  rw [flagOf_getLsbD_one]
  constructor
  · rintro ⟨hc, x, rfl⟩
    exact ⟨x, rfl, (checkOf_rc4Ksa_eq_none x s).1 hc⟩
  · rintro ⟨x, rfl, hx⟩
    exact ⟨(checkOf_rc4Ksa_eq_none x s).2 hx, x, rfl⟩

/-- Settles O49: a flag is the one before or the bit of a set-up command whose length check passes. -/
theorem onlySetUpCommandsSetFlags : Obligations.OnlySetUpCommandsSetFlags := by
  intro i s
  refine ⟨nextOf i s, responseOf i s, runs_nextOf i s, cbcValid_nextOf i s, rc4Valid_nextOf i s, ?_⟩
  rw [nextOf_status]
  exact bodyOf_of_effectOf (P := fun t => t.status &&& 0xFC#8 = s.status &&& 0xFC#8) rfl fun _ =>
    effectOf_status_reserved i s

/-! ### The calls of the transform (R28, R49) -/

@[simp] theorem encCalls_map_enc (l : List (List Byte)) : encCalls (l.map .enc) = l.length := by
  simp [encCalls, List.countP_map, Function.comp_def]

@[simp] theorem decCalls_map_enc (l : List (List Byte)) : decCalls (l.map .enc) = 0 := by
  simp [decCalls, List.countP_map, Function.comp_def]

@[simp] theorem encCalls_map_dec (l : List (List Byte)) : encCalls (l.map .dec) = 0 := by
  simp [encCalls, List.countP_map, Function.comp_def]

@[simp] theorem decCalls_map_dec (l : List (List Byte)) : decCalls (l.map .dec) = l.length := by
  simp [decCalls, List.countP_map, Function.comp_def]

/-- Encrypting `ps` calls `E` once for each block, and never `D` (R92). -/
theorem cbcEncCalls_counts (bt : BlockTransform) (c : List Byte) (ps : List (List Byte)) :
    (encCalls (cbcEncCalls bt c ps (cbcEncBlocks bt c ps)), decCalls (cbcEncCalls bt c ps (cbcEncBlocks bt c ps))) =
      (ps.length, 0) := by
  rw [cbcEncCalls, encCalls_map_enc, decCalls_map_enc]
  simp

/-- The calls an effect adds, counted. -/
theorem effectOf_calls_counts (i : Instr) (s : State) :
    ∃ made, (effectOf i s).1.calls = s.calls ++ made ∧ (encCalls made, decCalls made) = okTransformCalls i := by
  cases i with
  | nop | cbcLdiv | rc4Ksa | rc4Prga => exact ⟨[], by simp, rfl⟩
  | ecbEnc x => exact ⟨(blocks Config.blockSize x).map .enc, rfl, by simp [okTransformCalls]⟩
  | ecbDec x => exact ⟨(blocks Config.blockSize x).map .dec, rfl, by simp [okTransformCalls]⟩
  | cbcEnc x => exact ⟨_, rfl, (cbcEncCalls_counts ..).trans (by simp [okTransformCalls])⟩
  | cbcDec x =>
    obtain ⟨made, hcalls, hperm⟩ := recordDecCalls_calls s (blocks Config.blockSize x)
    refine ⟨made, hcalls, ?_⟩
    have hE : encCalls made = encCalls ((blocks Config.blockSize x).map .dec) := hperm.countP_eq _
    have hD : decCalls made = decCalls ((blocks Config.blockSize x).map .dec) := hperm.countP_eq _
    simp [hE, hD, okTransformCalls]

theorem checksOf_eq_zero_iff (i : Instr) (s : State) : checksOf i s = (0, 0) ↔ checkOf i s = none := by
  rw [checkOf_checksOf]
  cases checkOf i s with
  | none => simp
  | some e =>
    have hpos := (errCode_pos_le e).1
    simp only [Prod.mk.injEq, reduceCtorEq, iff_false]
    omega

/-- Settles O47: the calls an effect adds are counted one command at a time, and an error adds none. -/
theorem transformIsCalledOncePerBlock : Obligations.TransformIsCalledOncePerBlock := by
  intro i s
  simp only [checksOf_eq_zero_iff]
  cases hc : checkOf i s with
  | none =>
    obtain ⟨made, hcalls, hcounts⟩ := effectOf_calls_counts i s
    exact ⟨nextOf i s, responseOf i s, made, runs_nextOf i s, by rw [nextOf_calls, bodyOf_ok hc, hcalls],
      by simpa using hcounts⟩
  | some e =>
    exact ⟨nextOf i s, responseOf i s, [], runs_nextOf i s, by simp [bodyOf_err hc], by simp [encCalls, decCalls]⟩

end Sys2Proof.Machine
end

section
/-! The invariant of the registers (R25, R29, R30): it holds at reset, every effect keeps it, and so does every step. -/

namespace Sys2Proof.Machine

/-- The invariant is about the registers alone. -/
theorem RegistersOk.congr {s t : State} (h : RegistersOk s) (hcv : t.cv = s.cv) (hrc4 : t.rc4 = s.rc4)
    (hstatus : t.status = s.status) : RegistersOk t := by
  refine ⟨fun hv => ?_, fun hv => ?_, ?_⟩
  · rw [hcv]; exact h.cv_length (cbcValid_congr hstatus ▸ hv)
  · rw [hrc4]; exact h.s_permutation (rc4Valid_congr hstatus ▸ hv)
  · rw [hstatus]; exact h.reserved_zero

theorem cbcValid_of_status_zero {s : State} (h : s.status = 0x00#8) : cbcValid s = false := by simp [cbcValid, h]
theorem rc4Valid_of_status_zero {s : State} (h : s.status = 0x00#8) : rc4Valid s = false := by simp [rc4Valid, h]

/-- With both flags clear the invariant asks nothing of `CV` and `S`. -/
theorem registersOk_of_status_zero {s : State} (h : s.status = 0x00#8) : RegistersOk s := by
  refine ⟨fun hv => ?_, fun hv => ?_, by rw [h]; rfl⟩
  · simp [cbcValid_of_status_zero h] at hv
  · simp [rc4Valid_of_status_zero h] at hv

/-- The last of a list of blocks, or the block in its place, is a block. -/
theorem getLastD_length {b : Nat} {l : List (List Byte)} {d : List Byte} (hl : ∀ u ∈ l, u.length = b)
    (hd : d.length = b) : (l.getLastD d).length = b := by
  rw [getLastD_eq]
  split
  · exact hd
  · exact hl _ (List.getElem_mem _)

theorem cbcValid_of_checkOf_cbcEnc {x : List Byte} {s : State} (h : checkOf (.cbcEnc x) s = none) :
    cbcValid s = true := by
  by_contra hv
  simp [checkOf_cbcEnc_noCtx x (Bool.eq_false_of_not_eq_true hv)] at h

theorem cbcValid_of_checkOf_cbcDec {x : List Byte} {s : State} (h : checkOf (.cbcDec x) s = none) :
    cbcValid s = true := by
  by_contra hv
  simp [checkOf_cbcDec_noCtx x (Bool.eq_false_of_not_eq_true hv)] at h

theorem rc4Valid_of_checkOf_rc4Prga {x : List Byte} {s : State} (h : checkOf (.rc4Prga x) s = none) :
    rc4Valid s = true := by
  by_contra hv
  simp [checkOf_rc4Prga_noCtx x (Bool.eq_false_of_not_eq_true hv)] at h

/-- `CV` holds one block after every CBC command that passed its checks (R30). -/
theorem effectOf_cv_length {i : Instr} {s : State} (h : RegistersOk s) (hc : checkOf i s = none)
    (hv : cbcValid (effectOf i s).1 = true) : (effectOf i s).1.cv.length = Config.blockSize := by
  cases i with
  | nop | ecbEnc | ecbDec | rc4Prga => exact h.cv_length hv
  | rc4Ksa x => simpa using h.cv_length (by simpa using hv)
  | cbcLdiv x =>
    have hx := (checkOf_cbcLdiv_eq_none x s).1 hc
    simp [memRead, hx]
  | cbcEnc x =>
    exact getLastD_length (fun u hu => mem_cbcEncBlocks_length Config.bt hu)
      (h.cv_length (cbcValid_of_checkOf_cbcEnc hc))
  | cbcDec x =>
    exact getLastD_length (fun u hu => mem_blocks_length hu) (h.cv_length (cbcValid_of_checkOf_cbcDec hc))

/-- `S` is a permutation after every RC4 command that passed its checks (R29). -/
theorem effectOf_s_permutation {i : Instr} {s : State} (h : RegistersOk s) (hc : checkOf i s = none)
    (hv : rc4Valid (effectOf i s).1 = true) : IsPermutation (effectOf i s).1.rc4.s := by
  cases i with
  | nop | ecbEnc | ecbDec | cbcEnc | cbcDec => exact h.s_permutation hv
  | cbcLdiv x => exact h.s_permutation (by simpa using hv)
  | rc4Ksa x => exact isPermutation_ksaShuffle x
  | rc4Prga x =>
    show IsPermutation (prgaRun s.rc4 x).1.s
    rw [prgaRun_fst]
    exact isPermutation_prgaAt (h.s_permutation (rc4Valid_of_checkOf_rc4Prga hc)) _

theorem registersOk_effectOf {i : Instr} {s : State} (h : RegistersOk s) (hc : checkOf i s = none) :
    RegistersOk (effectOf i s).1 :=
  ⟨effectOf_cv_length h hc, effectOf_s_permutation h hc, (effectOf_status_reserved i s).trans h.reserved_zero⟩

/-- Every command keeps the invariant. -/
theorem registersOk_nextOf {s : State} (h : RegistersOk s) (i : Instr) : RegistersOk (nextOf i s) :=
  (bodyOf_of_effectOf h (registersOk_effectOf h)).congr (nextOf_cv i s) (nextOf_rc4 i s) (nextOf_status i s)

/-- Settles O2: both flags are clear at reset. -/
theorem resetMeetsRegisterInvariant : Obligations.ResetMeetsRegisterInvariant :=
  registersOk_of_status_zero rfl

/-- Settles O3, by what a step can be: idle, a reset, a command executed, or an illegal word answered. -/
theorem stepKeepsRegisterInvariant : Obligations.StepKeepsRegisterInvariant := by
  intro s t h hstep
  obtain ⟨-, rfl⟩ | ⟨rest, -, rfl⟩ | ⟨c, rest, i, -, -, hexec⟩ | ⟨c, rest, e, -, -, rfl⟩ := step_cases hstep
  · exact h
  · exact registersOk_of_status_zero rfl
  · have hport : RegistersOk { s with port := rest } := h.congr rfl rfl rfl
    rw [exec_eq_nextOf] at hexec
    cases hexec
    exact registersOk_nextOf hport i
  · exact h.congr rfl rfl rfl

/-- Settles O1: the fields of the state after reset. -/
theorem resetClearsBothValidFlags : Obligations.ResetClearsBothValidFlags :=
  ⟨rfl, rfl, rfl, rfl, rfl, rfl⟩

/-- Settles O7, by the equation of `step` for a reset. -/
theorem stepTakesResetEvent : Obligations.StepTakesResetEvent :=
  fun s rest hp => ⟨applyReset { s with port := rest }, step_of_port_reset hp, rfl, cbcValid_of_status_zero rfl,
    rc4Valid_of_status_zero rfl, rfl, rfl, rfl⟩

end Sys2Proof.Machine
end

section
/-! Registers that hold no value are never read (R26): two states that differ in such registers only take the same step.
A command that reads `CV` or `S`, `I`, `J` has passed the check of its flag, so the register is the same in both. -/

namespace Sys2Proof.Machine

namespace SameButUnwritten

variable {s u : State}

/-- A load of `CV` that sets its flag. -/
theorem loadCv (h : SameButUnwritten s u) (v : List Byte) :
    SameButUnwritten (setCbcValid (writeCv v s)) (setCbcValid (writeCv v u)) where
  status := by simp [h.status]
  port := h.port
  responses := h.responses
  calls := h.calls
  orderDraws := h.orderDraws
  cv _ := rfl
  rc4 hv := h.rc4 (by simpa using hv)

/-- A load of `S`, `I` and `J` that sets their flag. -/
theorem loadRc4 (h : SameButUnwritten s u) (c : Rc4Ctx) :
    SameButUnwritten (setRc4Valid (writeRc4 c s)) (setRc4Valid (writeRc4 c u)) where
  status := by simp [h.status]
  port := h.port
  responses := h.responses
  calls := h.calls
  orderDraws := h.orderDraws
  cv hv := h.cv (by simpa using hv)
  rc4 _ := rfl

theorem writeCv (h : SameButUnwritten s u) (v : List Byte) : SameButUnwritten (writeCv v s) (writeCv v u) :=
  { h with cv := fun _ => rfl }

theorem writeRc4 (h : SameButUnwritten s u) (c : Rc4Ctx) : SameButUnwritten (writeRc4 c s) (writeRc4 c u) :=
  { h with rc4 := fun _ => rfl }

theorem recordCalls (h : SameButUnwritten s u) (cs : List BtCall) :
    SameButUnwritten (recordCalls cs s) (recordCalls cs u) :=
  { h with calls := by simp [h.calls] }

theorem recordDecCalls (h : SameButUnwritten s u) (cs : List (List Byte)) :
    SameButUnwritten (recordDecCalls cs s) (recordDecCalls cs u) :=
  { h with
    calls := by simp only [Machine.recordDecCalls, recordCalls_calls, h.calls, h.orderDraws]
    orderDraws := by simp [h.orderDraws] }

theorem answer (h : SameButUnwritten s u) (c r : Byte) (out : List Byte) :
    SameButUnwritten (answer Config.bt c r out s) (answer Config.bt c r out u) :=
  { h with responses := by rw [answer_responses, answer_responses, h.responses, readStatus_congr h.status] }

theorem with_port (h : SameButUnwritten s u) (p : List HostEvent) :
    SameButUnwritten { s with port := p } { u with port := p } := { h with port := rfl }

/-- Where the checks pass, the effects again differ in unwritten registers only, and put out the same. -/
theorem effectOf {i : Instr} (h : SameButUnwritten s u) (hc : checkOf i s = none) :
    SameButUnwritten (effectOf i s).1 (effectOf i u).1 ∧ (effectOf i s).2 = (effectOf i u).2 := by
  cases i with
  | nop x => exact ⟨h, rfl⟩
  | ecbEnc x => exact ⟨h.recordCalls _, rfl⟩
  | ecbDec x => exact ⟨h.recordCalls _, rfl⟩
  | cbcLdiv x => exact ⟨h.loadCv _, rfl⟩
  | cbcEnc x =>
    rw [effectOf_cbcEnc, effectOf_cbcEnc, h.cv (cbcValid_of_checkOf_cbcEnc hc)]
    exact ⟨(h.recordCalls _).writeCv _, rfl⟩
  | cbcDec x =>
    rw [effectOf_cbcDec, effectOf_cbcDec, h.cv (cbcValid_of_checkOf_cbcDec hc)]
    exact ⟨(h.recordDecCalls _).writeCv _, rfl⟩
  | rc4Ksa x => exact ⟨h.loadRc4 _, rfl⟩
  | rc4Prga x =>
    rw [effectOf_rc4Prga, effectOf_rc4Prga, h.rc4 (rc4Valid_of_checkOf_rc4Prga hc)]
    exact ⟨h.writeRc4 _, rfl⟩

/-- Every command does the same in both states. -/
theorem nextOf (h : SameButUnwritten s u) (i : Instr) : SameButUnwritten (nextOf i s) (nextOf i u) := by
  have hcheck := checkOf_congr i h.status
  rw [Machine.nextOf, Machine.nextOf, ← hcheck]
  cases hc : checkOf i s with
  | none =>
    obtain ⟨hstate, hout⟩ := h.effectOf hc
    rw [runChecked_none, runChecked_none, ← hout]
    exact hstate.answer ..
  | some e => exact h.answer ..

end SameButUnwritten

/-- Settles O51, by what is next on the port, which is the same in both states. -/
theorem unwrittenRegistersAreNeverRead : Obligations.UnwrittenRegistersAreNeverRead := by
  intro s u t h hstep
  obtain ⟨hp, rfl⟩ | ⟨rest, hp, rfl⟩ | ⟨c, rest, i, hp, hd, hexec⟩ | ⟨c, rest, e, hp, hd, rfl⟩ := step_cases hstep
  all_goals rw [h.port] at hp
  · exact ⟨u, step_of_port_nil hp, h⟩
  · exact ⟨_, step_of_port_reset hp, rfl, rfl, h.responses, h.calls, h.orderDraws, fun _ => rfl, fun _ => rfl⟩
  · rw [exec_eq_nextOf] at hexec
    cases hexec
    exact ⟨_, (step_of_port_command hp hd).trans (exec_eq_nextOf i _), (h.with_port rest).nextOf i⟩
  · exact ⟨_, step_of_port_illegal hp hd, (h.with_port rest).answer ..⟩

end Sys2Proof.Machine
end

section
/-! The units do not interact (R34). Two runs are compared: one of all commands, one of a unit's commands only. Throughout,
the unit's registers and flag agree; a command of the unit is answered alike in both, and a command of another unit
leaves them as they are. -/

namespace Sys2Proof.Machine

/-- The registers and the flag of a unit are the same in both states. -/
def UnitAgrees : CipherUnit → State → State → Prop
  | .ecb, _, _ => True
  | .cbc, s, t => s.cv = t.cv ∧ cbcValid s = cbcValid t
  | .rc4, s, t => s.rc4 = t.rc4 ∧ rc4Valid s = rc4Valid t

theorem UnitAgrees.refl (u : CipherUnit) (s : State) : UnitAgrees u s s := by
  cases u with
  | ecb => trivial
  | cbc | rc4 => exact ⟨rfl, rfl⟩

/-- The fields of a response that are the unit's own: `OUT`, and `CODE`, `BLK` and `REM` (R34). -/
def unitPart (r : Response) : List Byte × BitVec 24 := (r.out, r.word.extractLsb' 8 24)

/-! ### A command of another unit -/

theorem cbcValid_nextOf_of_unitOf_ne {i : Instr} (h : unitOf i ≠ some .cbc) (s : State) :
    cbcValid (nextOf i s) = cbcValid s := by
  refine Bool.eq_iff_iff.2 ((cbcValid_nextOf i s).trans (or_iff_left ?_))
  rintro ⟨x, rfl, -⟩
  exact h rfl

theorem rc4Valid_nextOf_of_unitOf_ne {i : Instr} (h : unitOf i ≠ some .rc4) (s : State) :
    rc4Valid (nextOf i s) = rc4Valid s := by
  refine Bool.eq_iff_iff.2 ((rc4Valid_nextOf i s).trans (or_iff_left ?_))
  rintro ⟨x, rfl, -⟩
  exact h rfl

/-- A command of another unit leaves the registers and the flag of this one. -/
theorem UnitAgrees.nextOf_other {u : CipherUnit} {s t : State} (h : UnitAgrees u s t) {i : Instr}
    (hi : unitOf i ≠ some u) : UnitAgrees u (nextOf i s) t := by
  cases u with
  | ecb => trivial
  | cbc =>
    obtain ⟨hcv, hvalid⟩ := h
    exact ⟨by rw [nextOf_cv, bodyOf_cv_of_unitOf_ne hi, hcv], by rw [cbcValid_nextOf_of_unitOf_ne hi, hvalid]⟩
  | rc4 =>
    obtain ⟨hrc4, hvalid⟩ := h
    exact ⟨by rw [nextOf_rc4, bodyOf_rc4_of_unitOf_ne hi, hrc4], by rw [rc4Valid_nextOf_of_unitOf_ne hi, hvalid]⟩

/-! ### A command of the unit -/

/-- The checks of a command read its own unit's flag only. -/
theorem UnitAgrees.checkOf_eq {u : CipherUnit} {s t : State} (h : UnitAgrees u s t) {i : Instr}
    (hi : unitOf i = some u) : checkOf i s = checkOf i t := by
  cases i with
  | nop => cases hi
  | ecbEnc | ecbDec | cbcLdiv | rc4Ksa => rfl
  | cbcEnc | cbcDec =>
    cases hi
    obtain ⟨-, hvalid⟩ := h
    simp only [checkOf, needCbc_eq, hvalid]
  | rc4Prga =>
    cases hi
    obtain ⟨-, hvalid⟩ := h
    simp only [checkOf, needRc4_eq, hvalid]

/-- The output of a command is made from its own unit's registers only. -/
theorem UnitAgrees.effectOf_out {u : CipherUnit} {s t : State} (h : UnitAgrees u s t) {i : Instr}
    (hi : unitOf i = some u) : (effectOf i s).2 = (effectOf i t).2 := by
  cases i with
  | nop => cases hi
  | ecbEnc | ecbDec | cbcLdiv | rc4Ksa => rfl
  | cbcEnc | cbcDec =>
    cases hi
    obtain ⟨hcv, -⟩ := h
    simp [hcv]
  | rc4Prga =>
    cases hi
    obtain ⟨hrc4, -⟩ := h
    simp [hrc4]

theorem effectOf_cv_congr {s t : State} (h : s.cv = t.cv) (i : Instr) : (effectOf i s).1.cv = (effectOf i t).1.cv := by
  cases i with
  | cbcLdiv => rfl
  | cbcEnc | cbcDec => simp [h]
  | _ => simpa using h

theorem effectOf_rc4_congr {s t : State} (h : s.rc4 = t.rc4) (i : Instr) :
    (effectOf i s).1.rc4 = (effectOf i t).1.rc4 := by
  cases i with
  | rc4Ksa => rfl
  | rc4Prga => simp [h]
  | _ => simpa using h

/-- A command of the unit leaves its registers and its flag the same in both states. -/
theorem UnitAgrees.nextOf_own {u : CipherUnit} {s t : State} (h : UnitAgrees u s t) {i : Instr}
    (hi : unitOf i = some u) : UnitAgrees u (nextOf i s) (nextOf i t) := by
  have hcheck := h.checkOf_eq hi
  cases u with
  | ecb => trivial
  | cbc =>
    obtain ⟨hcv, hvalid⟩ := h
    refine ⟨?_, Bool.eq_iff_iff.2 (by rw [cbcValid_nextOf, cbcValid_nextOf, hvalid])⟩
    rw [nextOf_cv, nextOf_cv]
    exact bodyOf_congr (fun p => p.1.cv) hcheck hcv (effectOf_cv_congr hcv i)
  | rc4 =>
    obtain ⟨hrc4, hvalid⟩ := h
    refine ⟨?_, Bool.eq_iff_iff.2 (by rw [rc4Valid_nextOf, rc4Valid_nextOf, hvalid])⟩
    rw [nextOf_rc4, nextOf_rc4]
    exact bodyOf_congr (fun p => p.1.rc4) hcheck hrc4 (effectOf_rc4_congr hrc4 i)

/-- A command of the unit is answered alike in both states, but for `STAT`, which shows the other unit's flag too. -/
theorem UnitAgrees.unitPart_responseOf {u : CipherUnit} {s t : State} (h : UnitAgrees u s t) {i : Instr}
    (hi : unitOf i = some u) : unitPart (responseOf i s) = unitPart (responseOf i t) := by
  have hcheck := h.checkOf_eq hi
  have hverdict : verdictOf i s = verdictOf i t := by simp only [verdictOf, hcheck]
  have hout : (bodyOf i s).2 = (bodyOf i t).2 := bodyOf_congr Prod.snd hcheck rfl (h.effectOf_out hi)
  simp only [unitPart, responseOf, hverdict, hout, upper_responseWord _ _ _ (readStatus (bodyOf i s).1)
    (readStatus (bodyOf i t).1)]

/-! ### Runs -/

/-- The answers to a sequence of commands, one for each. -/
def responsesOf : List Instr → State → List Response
  | [], _ => []
  | i :: is, s => responseOf i s :: responsesOf is (nextOf i s)

theorem runCommands_cons (i : Instr) (is : List Instr) (s : State) :
    runCommands (i :: is) s = runCommands is (nextOf i s) := by
  simp only [runCommands, exec_eq_nextOf]

theorem runCommands_responses (is : List Instr) (s : State) :
    (runCommands is s).responses = s.responses ++ responsesOf is s := by
  induction is generalizing s with
  | nil => exact (List.append_nil _).symm
  | cons i is ih => rw [runCommands_cons, ih, nextOf_responses, List.append_assoc]; rfl

/-- A run and the run of the unit's commands alone, from states in which the unit agrees: it agrees after them, and its
commands are answered alike. -/
theorem UnitAgrees.run {u : CipherUnit} (is : List Instr) {s t : State} (h : UnitAgrees u s t) :
    UnitAgrees u (runCommands is s) (runCommands (is.filter fun i => unitOf i == some u) t) ∧
    ((is.zip (responsesOf is s)).filter fun p => unitOf p.1 == some u).map (fun p => unitPart p.2) =
      (responsesOf (is.filter fun i => unitOf i == some u) t).map unitPart := by
  induction is generalizing s t with
  | nil => exact ⟨h, rfl⟩
  | cons i is ih =>
    by_cases hi : unitOf i = some u
    · have ⟨hstate, hanswers⟩ := ih (h.nextOf_own hi)
      simp only [runCommands_cons, responsesOf, List.zip_cons_cons, List.filter_cons, hi, beq_self_eq_true, if_true,
        List.map_cons]
      exact ⟨hstate, by rw [h.unitPart_responseOf hi, hanswers]⟩
    · have ⟨hstate, hanswers⟩ := ih (h.nextOf_other hi)
      simp only [runCommands_cons, responsesOf, List.zip_cons_cons, List.filter_cons, beq_iff_eq, hi, if_false]
      exact ⟨hstate, hanswers⟩

/-- Settles O50, by induction on the commands, with the other units' commands leaving what the unit reads. -/
theorem unitsDoNotInteract : Obligations.UnitsDoNotInteract := by
  intro u is s hs
  obtain ⟨hstate, hanswers⟩ := (UnitAgrees.refl u s).run is
  refine ⟨?_, ?_, ?_⟩
  · rw [runCommands_responses, runCommands_responses, hs, List.nil_append, List.nil_append]
    exact hanswers
  · rintro rfl
    exact hstate
  · rintro rfl
    exact hstate

end Sys2Proof.Machine
end

section
/-! A run of steps executes the delivered commands in their order (R48, R71). A command does not see what is still on the
port, so the steps, which take one command after the other off it, do what executing the instructions does. -/

namespace Sys2Proof.Machine

theorem nextOf_with_port (i : Instr) (s : State) (p : List HostEvent) :
    nextOf i { s with port := p } = { nextOf i s with port := p } := by
  have h := exec_with_port p (exec_eq_nextOf i s)
  rw [exec_eq_nextOf] at h
  exact Host.Outcome.next.inj h

/-- Executing a sequence of commands does the same whatever is still on the port, and leaves it there. -/
theorem runCommands_with_port (is : List Instr) (s : State) (p : List HostEvent) :
    runCommands is { s with port := p } = { runCommands is s with port := p } := by
  induction is generalizing s with
  | nil => rfl
  | cons i is ih => rw [runCommands_cons, runCommands_cons, nextOf_with_port, ih]

/-- A delivered command that decodes is taken off the port and executed. -/
theorem step_nextOf_of_port_command {s : State} {c : Command} {rest : List HostEvent} {i : Instr}
    (hp : s.port = .command c :: rest) (hd : decode c = .ok i) : step s = .next { nextOf i s with port := rest } := by
  rw [step_of_port_command hp hd, exec_eq_nextOf, nextOf_with_port]

/-- A run of one step more starts with that step. -/
theorem run_succ_of_step {M : Host.Core} {s t : M.State} (h : M.step s = .next t) (k : Nat) :
    M.run (k + 1) s = M.run k t := by
  rw [Host.Core.run, h]

/-- Settles O10, by induction on the delivered commands, in step with the instructions they decode to. -/
theorem runExecutesCommandsInOrder : Obligations.RunExecutesCommandsInOrder := by
  intro cs
  induction cs with
  | nil =>
    intro is rest s hp hd
    obtain rfl : is = [] := by simpa using hd
    obtain rfl : s.port = rest := hp
    rfl
  | cons c cs ih =>
    rintro (_ | ⟨i, is⟩) rest s hp hd
    · simp at hd
    · obtain ⟨hi, his⟩ := List.cons.inj hd
      have hstep := step_nextOf_of_port_command (rest := cs.map HostEvent.command ++ rest) hp hi
      have hrest := ih is rest { nextOf i s with port := cs.map HostEvent.command ++ rest } rfl his
      rw [runCommands_with_port] at hrest
      rw [runCommands_cons]
      exact (run_succ_of_step (M := core) hstep cs.length).trans hrest

end Sys2Proof.Machine
end

section
/-! The length of the output of every command (R46): the blocks a block-mode command puts out are as many as the blocks
of its input, and each has `B` bytes. -/

namespace Sys2Proof.Machine

theorem responseOf_out (i : Instr) (s : State) : (responseOf i s).out = (bodyOf i s).2 := rfl

theorem wholeBlocks_of_needWholeBlocks {bt : BlockTransform} {n : Nat} (h : needWholeBlocks bt n = none) :
    n % bt.size = 0 := by
  by_contra hn
  simp [needWholeBlocks_some hn] at h

theorem wholeBlocks_of_checkOf_cbcEnc {x : List Byte} {s : State} (h : checkOf (.cbcEnc x) s = none) :
    x.length % Config.blockSize = 0 :=
  wholeBlocks_of_needWholeBlocks ((checkOf_cbcEnc_valid x (cbcValid_of_checkOf_cbcEnc h)).symm.trans h)

theorem wholeBlocks_of_checkOf_cbcDec {x : List Byte} {s : State} (h : checkOf (.cbcDec x) s = none) :
    x.length % Config.blockSize = 0 :=
  wholeBlocks_of_needWholeBlocks ((checkOf_cbcDec_valid x (cbcValid_of_checkOf_cbcDec h)).symm.trans h)

/-- As many blocks as a buffer of whole blocks has are together as long as the buffer. -/
theorem flatten_length_of_block_count {b : Nat} {l : List (List Byte)} {x : List Byte} (hl : ∀ u ∈ l, u.length = b)
    (hcount : l.length = x.length / b) (hx : x.length % b = 0) : l.flatten.length = x.length := by
  rw [flatten_length hl, hcount, Nat.div_mul_cancel (Nat.dvd_of_mod_eq_zero hx)]

/-- The output of an effect is as long as R46 says for a command whose checks pass. -/
theorem effectOf_out_length {i : Instr} {s : State} (h : checkOf i s = none) :
    (effectOf i s).2.length = okOutputLength i := by
  cases i with
  | nop | cbcLdiv | rc4Ksa => rfl
  | ecbEnc x =>
    exact (map_blocks_flatten blockSize_pos (encBlock_length Config.bt) (wholeBlocks_of_needWholeBlocks h)).1
  | ecbDec x =>
    exact (map_blocks_flatten blockSize_pos (decBlock_length Config.bt) (wholeBlocks_of_needWholeBlocks h)).1
  | cbcEnc x =>
    exact flatten_length_of_block_count (fun u hu => mem_cbcEncBlocks_length Config.bt hu) (by simp)
      (wholeBlocks_of_checkOf_cbcEnc h)
  | cbcDec x =>
    exact flatten_length_of_block_count (fun u hu => mem_cbcDecBlocks_length Config.bt hu) (by simp)
      (wholeBlocks_of_checkOf_cbcDec h)
  | rc4Prga x => exact prgaRun_snd_length s.rc4 x

/-- Settles O46: the output is that of the effect where the checks pass, and empty where one fails. -/
theorem outputHasTheLengthOfItsCommand : Obligations.OutputHasTheLengthOfItsCommand := by
  intro i s
  refine ⟨nextOf i s, responseOf i s, runs_nextOf i s, ?_⟩
  simp only [checksOf_eq_zero_iff, responseOf_out]
  cases hc : checkOf i s with
  | none => simpa [bodyOf_ok hc] using effectOf_out_length hc
  | some e => simp [bodyOf_err hc]

end Sys2Proof.Machine
end

section
/-! A buffer split in two gives the same result (R51). The claim is shown of the effect of each of the five commands, and
then, once for all, of the commands: the three executions pass the same check or fail it, since none of the five changes
`STATUS`. -/

namespace Sys2Proof.Machine

/-! ### Commands in states with the same registers -/

theorem registers_eq_iff {s t : State} :
    registers s = registers t ↔ s.cv = t.cv ∧ s.rc4 = t.rc4 ∧ s.status = t.status := by simp [registers]

theorem registers_nextOf (i : Instr) (s : State) : registers (nextOf i s) = registers (bodyOf i s).1 :=
  registers_eq_iff.2 ⟨nextOf_cv i s, nextOf_rc4 i s, nextOf_status i s⟩

/-- An effect puts out the same in states with the same registers. -/
theorem effectOf_out_congr {s t : State} (h : registers s = registers t) (i : Instr) :
    (effectOf i s).2 = (effectOf i t).2 := by
  obtain ⟨hcv, hrc4, -⟩ := registers_eq_iff.1 h
  cases i with
  | nop | ecbEnc | ecbDec | cbcLdiv | rc4Ksa => rfl
  | cbcEnc | cbcDec => simp [hcv]
  | rc4Prga => simp [hrc4]

/-- An effect leaves the same registers in states with the same registers. -/
theorem registers_effectOf_congr {s t : State} (h : registers s = registers t) (i : Instr) :
    registers (effectOf i s).1 = registers (effectOf i t).1 := by
  obtain ⟨hcv, hrc4, hstatus⟩ := registers_eq_iff.1 h
  exact registers_eq_iff.2 ⟨effectOf_cv_congr hcv i, effectOf_rc4_congr hrc4 i, by
    rw [effectOf_status, effectOf_status, hstatus]⟩

/-- A command that is not a set-up command leaves `STATUS` as it is. -/
theorem nextOf_status_of_flagOf_zero {i : Instr} (h : flagOf i = 0x00#8) (s : State) :
    (nextOf i s).status = s.status := by
  rw [nextOf_status]
  refine bodyOf_of_effectOf (P := fun t => t.status = s.status) rfl fun _ => ?_
  rw [effectOf_status, h, BitVec.or_zero]

/-! ### The effects -/

/-- The effect of `f` on `x₁` and then on `x₂` puts out and leaves in the registers what its effect on `x₁ ++ x₂`
does. -/
def EffectSplits (f : List Byte → Instr) (x₁ x₂ : List Byte) (s : State) : Prop :=
  (effectOf (f x₁) s).2 ++ (effectOf (f x₂) (effectOf (f x₁) s).1).2 = (effectOf (f (x₁ ++ x₂)) s).2 ∧
  registers (effectOf (f x₂) (effectOf (f x₁) s).1).1 = registers (effectOf (f (x₁ ++ x₂)) s).1

section
variable {x₁ : List Byte} (h : x₁.length % Config.blockSize = 0) (x₂ : List Byte) (s : State)
include h

theorem effectSplits_ecbEnc : EffectSplits .ecbEnc x₁ x₂ s := by
  simp [EffectSplits, registers, blocks_append blockSize_pos h]

theorem effectSplits_ecbDec : EffectSplits .ecbDec x₁ x₂ s := by
  simp [EffectSplits, registers, blocks_append blockSize_pos h]

theorem effectSplits_cbcEnc : EffectSplits .cbcEnc x₁ x₂ s := by
  simp [EffectSplits, registers, blocks_append blockSize_pos h, cbcEncBlocks_append]

theorem effectSplits_cbcDec : EffectSplits .cbcDec x₁ x₂ s := by
  simp [EffectSplits, registers, blocks_append blockSize_pos h, cbcDecBlocks_append]

end

theorem effectSplits_rc4Prga (x₁ x₂ : List Byte) (s : State) : EffectSplits .rc4Prga x₁ x₂ s := by
  simp [EffectSplits, registers, prgaRun_append]

/-! ### The commands -/

theorem firstError_none_right (a : Option CmdError) : firstError a none = a := by cases a <;> rfl

/-- On whole blocks `CBC_ENC` can fail its context check only. -/
theorem checkOf_cbcEnc_wholeBlocks {x : List Byte} (h : x.length % Config.blockSize = 0) (s : State) :
    checkOf (.cbcEnc x) s = needCbc s := by
  rw [checkOf, needWholeBlocks_none h, firstError_none_right]

/-- On whole blocks `CBC_DEC` can fail its context check only. -/
theorem checkOf_cbcDec_wholeBlocks {x : List Byte} (h : x.length % Config.blockSize = 0) (s : State) :
    checkOf (.cbcDec x) s = needCbc s := by
  rw [checkOf, needWholeBlocks_none h, firstError_none_right]

/-- A command whose effect splits is itself split, where the checks of the three executions agree. -/
theorem split_of_effectSplits {f : List Byte → Instr} {s : State} {x₁ x₂ : List Byte} {check : Option CmdError}
    (hflag : flagOf (f x₁) = 0x00#8) (hcheck : ∀ x ∈ [x₁, x₂, x₁ ++ x₂], checkOf (f x) s = check)
    (heffect : EffectSplits f x₁ x₂ s) :
    ∃ s₁ r₁ s₂ r₂ t r, Runs (f x₁) s s₁ r₁ ∧ Runs (f x₂) s₁ s₂ r₂ ∧ Runs (f (x₁ ++ x₂)) s t r ∧
      r₁.out ++ r₂.out = r.out ∧ registers s₂ = registers t := by
  have hc₁ : checkOf (f x₁) s = check := hcheck _ (by simp)
  have hc : checkOf (f (x₁ ++ x₂)) s = check := hcheck _ (by simp)
  have hc₂ : checkOf (f x₂) (nextOf (f x₁) s) = check :=
    (checkOf_congr _ (nextOf_status_of_flagOf_zero hflag s)).trans (hcheck _ (by simp))
  refine ⟨nextOf (f x₁) s, responseOf (f x₁) s, nextOf (f x₂) (nextOf (f x₁) s), responseOf (f x₂) (nextOf (f x₁) s),
    nextOf (f (x₁ ++ x₂)) s, responseOf (f (x₁ ++ x₂)) s, runs_nextOf .., runs_nextOf .., runs_nextOf .., ?_⟩
  rw [responseOf_out, responseOf_out, responseOf_out, registers_nextOf, registers_nextOf]
  cases check with
  | none =>
    have hmid : registers (nextOf (f x₁) s) = registers (effectOf (f x₁) s).1 := by
      rw [registers_nextOf, bodyOf_ok hc₁]
    rw [bodyOf_ok hc₁, bodyOf_ok hc₂, bodyOf_ok hc, effectOf_out_congr hmid, registers_effectOf_congr hmid]
    exact heffect
  | some e =>
    rw [bodyOf_err hc₁, bodyOf_err hc₂, bodyOf_err hc, registers_nextOf, bodyOf_err hc₁]
    exact ⟨rfl, rfl⟩

/-- Settles O31: the effect of each of the five commands splits, and so does the command. -/
theorem splitBufferGivesTheSameResult : Obligations.SplitBufferGivesTheSameResult := by
  intro f hf s x₁ x₂ hblocks
  have whole (hne : f [] ≠ Instr.rc4Prga []) : ∀ x ∈ [x₁, x₂, x₁ ++ x₂], x.length % Config.blockSize = 0 := by
    obtain ⟨h₁, h₂⟩ := hblocks hne
    simp [h₁, h₂, Nat.add_mod]
  simp only [List.mem_cons, List.not_mem_nil, or_false] at hf
  obtain rfl | rfl | rfl | rfl | rfl := hf
  · have hw := whole (by simp)
    exact split_of_effectSplits rfl (fun x hx => checkOf_ecbEnc_ok s (hw x hx))
      (effectSplits_ecbEnc (hw x₁ (by simp)) x₂ s)
  · have hw := whole (by simp)
    exact split_of_effectSplits rfl (fun x hx => checkOf_ecbDec_ok s (hw x hx))
      (effectSplits_ecbDec (hw x₁ (by simp)) x₂ s)
  · have hw := whole (by simp)
    exact split_of_effectSplits rfl (fun x hx => checkOf_cbcEnc_wholeBlocks (hw x hx) s)
      (effectSplits_cbcEnc (hw x₁ (by simp)) x₂ s)
  · have hw := whole (by simp)
    exact split_of_effectSplits rfl (fun x hx => checkOf_cbcDec_wholeBlocks (hw x hx) s)
      (effectSplits_cbcDec (hw x₁ (by simp)) x₂ s)
  · exact split_of_effectSplits rfl (fun _ _ => rfl) (effectSplits_rc4Prga x₁ x₂ s)

end Sys2Proof.Machine
end

section
/-! The command word and the decoder, both ways (R60, R61, R63): what decodes, said once as an equivalence on the opcode
and the buffer; the mask of R63 as the opcode; and the statements about the encoding, which follow. -/

namespace Sys2Proof

/-! ### What an opcode selects -/

/-- The opcode of a command selects it again, with its whole buffer. -/
theorem instrOfOp_opcodeOf (i : Instr) : instrOfOp (opcodeOf i) i.input = some i := by
  cases i with
  | nop x => exact Laws.OpcodeSelects.nop x
  | ecbEnc x => exact Laws.OpcodeSelects.ecbEnc x
  | ecbDec x => exact Laws.OpcodeSelects.ecbDec x
  | cbcLdiv x => exact Laws.OpcodeSelects.cbcLdiv x
  | cbcEnc x => exact Laws.OpcodeSelects.cbcEnc x
  | cbcDec x => exact Laws.OpcodeSelects.cbcDec x
  | rc4Ksa x => exact Laws.OpcodeSelects.rc4Ksa x
  | rc4Prga x => exact Laws.OpcodeSelects.rc4Prga x

theorem instrOfOp_eq_some_iff {op : Byte} {x : List Byte} {i : Instr} :
    instrOfOp op x = some i ↔ opcodeOf i = op ∧ i.input = x := by
  refine ⟨instrOfOp_some, ?_⟩
  rintro ⟨rfl, rfl⟩
  exact instrOfOp_opcodeOf i

/-- The eight values of `OP` that select a command (R63). -/
def legalOpcodes : List Byte := [0x00#8, 0x10#8, 0x11#8, 0x20#8, 0x21#8, 0x22#8, 0x30#8, 0x31#8]

theorem instrOfOp_eq_none_iff {op : Byte} {x : List Byte} : instrOfOp op x = none ↔ op ∉ legalOpcodes := by
  simp [instrOfOp, legalOpcodes, ite_eq_iff]

/-! ### What decodes -/

theorem decode_eq_ok_iff {c : Command} {i : Instr} :
    decode c = .ok i ↔ opcodeOf i = opField c.word ∧ i.input = c.input :=
  ⟨decode_ok, fun h => decode_of_instrOfOp (instrOfOp_eq_some_iff.2 h)⟩

theorem decode_eq_illegal_iff {c : Command} :
    decode c = .error (.illegalOpcode (opField c.word)) ↔ opField c.word ∉ legalOpcodes := by
  rw [← instrOfOp_eq_none_iff (x := c.input)]
  refine ⟨fun h => ?_, decode_of_instrOfOp_none⟩
  cases hi : instrOfOp (opField c.word) c.input with
  | none => rfl
  | some i => simp [decode_of_instrOfOp hi] at h

/-- A command with a legal opcode decodes, and its buffer is the delivered one. -/
theorem exists_decode_of_legal {c : Command} (h : opField c.word ∈ legalOpcodes) :
    ∃ i, i.input = c.input ∧ decode c = .ok i := by
  cases hi : instrOfOp (opField c.word) c.input with
  | none => exact absurd h (instrOfOp_eq_none_iff.1 hi)
  | some i => exact ⟨i, (instrOfOp_some hi).2, decode_of_instrOfOp hi⟩

theorem commandOf_mismatch {w : Word} {x : List Byte} (h : x.length ≠ lenField w) :
    commandOf w x = .error (.lengthMismatch (lenField w) x.length) := by
  rw [commandOf, dif_neg h]

theorem decodeParts_eq_ok_iff {w : Word} {x : List Byte} {i : Instr} :
    decodeParts w x = .ok i ↔ x.length = lenField w ∧ opcodeOf i = opField w ∧ i.input = x := by
  by_cases h : x.length = lenField w
  · simp only [decodeParts, commandOf_ok h, decode_eq_ok_iff, h, true_and]
  · simp [decodeParts, commandOf_mismatch h, h]

/-! ### The word as a number and under the mask -/

/-- `cmd = OP * 2^24 + LEN` (R60). -/
theorem word_toNat (w : Word) : w.toNat = (opField w).toNat * 2 ^ 24 + lenField w := by
  rw [opField_toNat, lenField_eq, Nat.div_add_mod']

/-- The match of an opcode's row: the opcode in bits 31:24, all else zero (R63). -/
def opcodeMatch (op : Byte) : Word := BitVec.ofNat 32 (op.toNat * 2 ^ 24)

theorem opcodeMatch_injective : Function.Injective opcodeMatch := by
  intro a b h
  have ha := a.isLt
  have hb := b.isLt
  have hn := congrArg BitVec.toNat h
  simp only [opcodeMatch, BitVec.toNat_ofNat] at hn
  apply BitVec.eq_of_toNat_eq
  omega

theorem masked_eq_opcodeMatch_iff {w : Word} {op : Byte} :
    w &&& 0xFF000000#32 = opcodeMatch op ↔ opField w = op := by
  rw [masked_word]
  exact opcodeMatch_injective.eq_iff

theorem masked_mem_legal_iff {w : Word} :
    w &&& 0xFF000000#32 ∈ legalOpcodes.map opcodeMatch ↔ opField w ∈ legalOpcodes := by
  rw [masked_word]
  exact List.mem_map_of_injective opcodeMatch_injective

/-- The eight matches of the opcode map (R63). -/
theorem legalOpcodes_map_opcodeMatch : legalOpcodes.map opcodeMatch =
    [0x00000000#32, 0x10000000#32, 0x11000000#32, 0x20000000#32, 0x21000000#32, 0x22000000#32, 0x30000000#32,
      0x31000000#32] := by decide

/-- A command decodes to an instruction on its buffer when its masked word is the match of the instruction's row. -/
theorem decode_eq_ok_iff_masked {c : Command} {i : Instr} (op : Byte) {m : Word} (hop : opcodeOf i = op)
    (hin : i.input = c.input) (hm : opcodeMatch op = m) : decode c = .ok i ↔ c.word &&& 0xFF000000#32 = m := by
  rw [decode_eq_ok_iff, ← hm, masked_eq_opcodeMatch_iff, hop, and_iff_left hin, eq_comm]

/-- A command is illegal when its masked word is the match of no row. -/
theorem decode_eq_illegal_iff_masked {c : Command} :
    decode c = .error (.illegalOpcode (opField c.word)) ↔
      c.word &&& 0xFF000000#32 ∉ legalOpcodes.map opcodeMatch := by
  rw [decode_eq_illegal_iff, masked_mem_legal_iff]

/-! ### The statements about the encoding -/

/-- Settles O13: the fields of an encoded word are the opcode and the length of the command, and these with the buffer
decide what decodes. -/
theorem decodeUndoesEncode : Obligations.DecodeUndoesEncode := fun _ hi =>
  decodeParts_eq_ok_iff.2 ⟨(lenField_encode hi).symm, (opField_encode hi).symm, rfl⟩

/-- Settles O14: a word is its two fields, and what decodes has the opcode of the one and the length of the other. -/
theorem encodeUndoesDecode : Obligations.EncodeUndoesDecode := by
  intro w x i h
  obtain ⟨hlen, hop, rfl⟩ := decodeParts_eq_ok_iff.1 h
  have hwf : i.WellFormed := (le_of_eq hlen).trans (lenField_le w)
  have hword : (encode i).1 = w := BitVec.eq_of_toNat_eq <| by
    calc (encode i).1.toNat = (opcodeOf i).toNat * 2 ^ 24 + i.len := encode_toNat hwf
      _ = (opField w).toNat * 2 ^ 24 + lenField w := by rw [hop, Instr.len, hlen]
      _ = w.toNat := (word_toNat w).symm
  exact ⟨Prod.ext hword rfl, hwf⟩

/-- Settles O12, by the fields of a word and those of an encoded word. -/
theorem commandWordIsOpcodeAndLength : Obligations.CommandWordIsOpcodeAndLength :=
  ⟨fun w => ⟨word_toNat w, lenField_le w⟩,
    fun _ hi => ⟨encode_toNat hi, opField_encode hi, lenField_encode hi, rfl⟩⟩

/-- Settles O11: each row's match is that of its opcode, and a word has a legal opcode just when its masked value is one
of the eight matches. -/
theorem decoderMatchesOpcodeMap : Obligations.DecoderMatchesOpcodeMap := by
  intro c
  refine ⟨decode_eq_ok_iff_masked 0x00#8 rfl rfl (by decide), decode_eq_ok_iff_masked 0x10#8 rfl rfl (by decide),
    decode_eq_ok_iff_masked 0x11#8 rfl rfl (by decide), decode_eq_ok_iff_masked 0x20#8 rfl rfl (by decide),
    decode_eq_ok_iff_masked 0x21#8 rfl rfl (by decide), decode_eq_ok_iff_masked 0x22#8 rfl rfl (by decide),
    decode_eq_ok_iff_masked 0x30#8 rfl rfl (by decide), decode_eq_ok_iff_masked 0x31#8 rfl rfl (by decide), ?_⟩
  rw [← legalOpcodes_map_opcodeMatch]
  exact decode_eq_illegal_iff_masked

/-- Settles O15: the stream is cut after the `LEN` bytes the word declares, or is too short for them. -/
theorem streamGivesUpExactlyLenBytes : Obligations.StreamGivesUpExactlyLenBytes := by
  intro w x rest
  constructor
  · intro hlen
    refine ⟨⟨w, x, hlen⟩, ?_, rfl, rfl, by rw [commandExtent, hlen]⟩
    simp [takeCommand, ← hlen]
  · intro hshort
    rw [takeCommand, dif_neg (Nat.not_le.2 hshort)]

/-- Settles O16, by evaluating the decoder on each word. -/
theorem opcodeMapWordsDecode : Obligations.OpcodeMapWordsDecode := by
  unfold Obligations.OpcodeMapWordsDecode
  decide

end Sys2Proof
end

section
/-! A delivered word, legal or not: an illegal one is answered with `ERR_ILLEGAL` and nothing else (R65, R133), and each
word is taken by one step and answered by one response, so that a run of as many steps answers them all (R71). -/

namespace Sys2Proof.Machine

/-- Settles O8, by whether the opcode is one of the eight. -/
theorem illegalOpcodeAnswersErrIllegal : Obligations.IllegalOpcodeAnswersErrIllegal := by
  intro s c rest hp
  constructor
  · intro hillegal
    rw [step_of_port_illegal hp (decode_eq_illegal_iff.2 hillegal), answerIllegal, raiseErr_eq_answered]
    rfl
  · intro hlegal
    obtain ⟨i, hin, hd⟩ := exists_decode_of_legal hlegal
    exact ⟨i, hin, step_of_port_command hp hd⟩

/-- A step takes the next delivered word, legal or not, and answers it once. -/
theorem step_answers_command {s : State} {c : Command} {rest : List HostEvent} (hp : s.port = .command c :: rest) :
    ∃ t, step s = .next t ∧ t.port = rest ∧ t.responses.length = s.responses.length + 1 := by
  cases hd : decode c with
  | ok i =>
    refine ⟨_, step_nextOf_of_port_command hp hd, rfl, ?_⟩
    simp [nextOf_responses]
  | error e =>
    refine ⟨_, step_of_port_illegal hp hd, rfl, ?_⟩
    simp [answerIllegal, raiseErr]

/-- Settles O9, by induction on the delivered commands. -/
theorem runAnswersEveryCommand : Obligations.RunAnswersEveryCommand := by
  intro cs rest
  induction cs with
  | nil => exact fun s hp => ⟨s, rfl, hp, rfl⟩
  | cons c cs ih =>
    intro s hp
    obtain ⟨u, hstep, hport, hcount⟩ := step_answers_command (rest := cs.map .command ++ rest) hp
    obtain ⟨t, hrun, htport, htcount⟩ := ih u hport
    refine ⟨t, (run_succ_of_step (M := core) hstep cs.length).trans hrun, htport, ?_⟩
    rw [htcount, hcount, List.length_cons]
    omega

end Sys2Proof.Machine
end

section
/-! The code and remainder a command is answered with (R66), and the pseudo-instructions (R74): what they expand to, and
that `CBC_DEC_PREFIXED` recovers what `CBC_ENC` enciphered. -/

namespace Sys2Proof.Machine

/-! ### The verdict -/

/-- `CODE` and `REM` of the answer, as numbers, are those of the checks of R66. -/
theorem verdictOf_toNat (i : Instr) (s : State) :
    ((verdictOf i s).1.toNat, (verdictOf i s).2.toNat) = checksOf i s := by
  rw [checkOf_checksOf, verdictOf]
  cases checkOf i s <;> rfl

/-- Settles O40: the two fields of the response are the verdict's. -/
theorem responseReportsFirstFailedCheck : Obligations.ResponseReportsFirstFailedCheck := by
  intro i s
  refine ⟨nextOf i s, responseOf i s, runs_nextOf i s, ?_⟩
  rw [← verdictOf_toNat]
  exact ⟨rspCode_mk .., rspRem_mk ..⟩

/-! ### `RC4_KEYSTREAM`, `RC4_DROP` and `CBC_DEC_PREFIXED` -/

/-- One command suffices for what one command can carry. -/
theorem prgaZeros_of_le {n : Nat} (h : n ≤ maxLen) : prgaZeros n = [.rc4Prga (List.replicate n 0#8)] := by
  have hpos : 0 < maxLen := by simp [maxLen]
  have hfull : (n - 1) / maxLen = 0 := Nat.div_eq_of_lt (by omega)
  simp [prgaZeros, hfull]

theorem lineCommands_cbcDecPrefixed {b : Nat} {iv : List Byte} (h : iv.length = b) (c : List Byte) :
    lineCommands b (.cbcDecPrefixed (.hex (iv ++ c))) = [.cbcLdiv iv, .cbcDec c] := by
  simp [lineCommands, bufferBytes, ← h]

/-- Settles O38, by the commands of `RC4_KEYSTREAM` one by one and the cut of a buffer after its first block. -/
theorem pseudoInstructionsExpandToCommands : Obligations.PseudoInstructionsExpandToCommands := by
  refine ⟨fun b n => ⟨rfl, sum_len_prgaZeros n, fun i hi => ?_, prgaZeros_of_le⟩,
    fun b iv c h => lineCommands_cbcDecPrefixed h c⟩
  obtain ⟨k, hk, rfl⟩ := mem_prgaZeros hi
  rw [Instr.WellFormed, len_rc4Prga_zeros]
  exact ⟨hk, rfl⟩

/-! ### Decryption after a load -/

section
variable {iv : List Byte} (hiv : iv.length = Config.blockSize) (s : State)
include hiv

/-- Loading an IV of one block makes it the chaining value. -/
theorem nextOf_cbcLdiv_cv : (nextOf (.cbcLdiv iv) s).cv = iv := by
  rw [nextOf_cv, bodyOf_ok (checkOf_cbcLdiv_ok s hiv)]
  simp [memRead, ← hiv]

theorem cbcValid_nextOf_cbcLdiv : cbcValid (nextOf (.cbcLdiv iv) s) = true :=
  (cbcValid_nextOf _ s).2 (.inr ⟨iv, rfl, hiv⟩)

/-- `CBC_ENC` on whole blocks right after the load chains them from the IV. -/
theorem cbcEnc_out_after_cbcLdiv {p : List Byte} (hp : p.length % Config.blockSize = 0) :
    (responseOf (.cbcEnc p) (nextOf (.cbcLdiv iv) s)).out =
      (cbcEncBlocks Config.bt iv (blocks Config.blockSize p)).flatten := by
  rw [responseOf_out, bodyOf_ok (checkOf_cbcEnc_ok (cbcValid_nextOf_cbcLdiv hiv s) hp), effectOf_cbcEnc,
    nextOf_cbcLdiv_cv hiv]

/-- `CBC_DEC` on whole blocks right after the load chains them from the IV. -/
theorem cbcDec_out_after_cbcLdiv {c : List Byte} (hc : c.length % Config.blockSize = 0) :
    (responseOf (.cbcDec c) (nextOf (.cbcLdiv iv) s)).out =
      (cbcDecBlocks Config.bt iv (blocks Config.blockSize c)).flatten := by
  rw [responseOf_out, bodyOf_ok (checkOf_cbcDec_ok (cbcValid_nextOf_cbcLdiv hiv s) hc), effectOf_cbcDec,
    nextOf_cbcLdiv_cv hiv]

end

/-- `CBC_LDIV` puts out nothing, loaded or not. -/
theorem responseOf_cbcLdiv_out (x : List Byte) (s : State) : (responseOf (.cbcLdiv x) s).out = [] := by
  rw [responseOf_out]
  cases hc : checkOf (.cbcLdiv x) s with
  | none => rw [bodyOf_ok hc]; rfl
  | some e => rw [bodyOf_err hc]

theorem flatten_cbcEncBlocks_wholeBlocks (iv : List Byte) (ps : List (List Byte)) :
    (cbcEncBlocks Config.bt iv ps).flatten.length % Config.blockSize = 0 := by
  rw [flatten_length fun _ hu => mem_cbcEncBlocks_length Config.bt hu]
  exact Nat.mul_mod_left ..

/-- Encrypting whole blocks and decrypting the result from the same chaining value gives the plaintext back. -/
theorem cbcDecBlocks_flatten_cbcEncBlocks (iv : List Byte) {p : List Byte} (hp : p.length % Config.blockSize = 0) :
    (cbcDecBlocks Config.bt iv (blocks Config.blockSize
      (cbcEncBlocks Config.bt iv (blocks Config.blockSize p)).flatten)).flatten = p := by
  rw [blocks_flatten blockSize_pos fun _ hu => mem_cbcEncBlocks_length Config.bt hu,
    cbcDecBlocks_cbcEncBlocks Config.bt iv (ps := blocks Config.blockSize p) fun _ hu => mem_blocks_length hu,
    flatten_blocks blockSize_pos hp]

/-- Settles O39: both runs chain from the same IV, which is what the round trip on blocks asks for. -/
theorem prefixedDecryptionRecoversPlaintext : Obligations.PrefixedDecryptionRecoversPlaintext := by
  intro s u iv p hiv hp
  have henc := cbcEnc_out_after_cbcLdiv hiv s hp
  have hdec := cbcDec_out_after_cbcLdiv hiv u (flatten_cbcEncBlocks_wholeBlocks iv (blocks Config.blockSize p))
  rw [cbcDecBlocks_flatten_cbcEncBlocks iv hp, ← henc] at hdec
  refine ⟨_, _, _, _, runs_nextOf (.cbcLdiv iv) s, runs_nextOf (.cbcEnc p) _, _, _, ?_,
    responseOf_cbcLdiv_out iv u, hdec⟩
  rw [lineCommands_cbcDecPrefixed hiv, runCommands_responses]
  rfl

end Sys2Proof.Machine
end

section
/-! The ECB unit (R80 to R83). Both commands are one shape, `IsEcb`: the length check, and an invertible map of blocks
applied to each block by itself. Every statement is shown once of that shape and then read off for each command. -/

namespace Sys2Proof.Machine

/-- The command `f` sends each block of its buffer through the map of blocks `g`, which is injective, and records one
`call` for each in increasing order; it checks for whole blocks only. -/
structure IsEcb (f : List Byte → Instr) (g : List Byte → List Byte) (call : List Byte → BtCall) : Prop where
  check : ∀ x s, checkOf (f x) s = needWholeBlocks Config.bt x.length
  effect : ∀ x s, effectOf (f x) s =
    (recordCalls ((blocks Config.blockSize x).map call) s, ((blocks Config.blockSize x).map g).flatten)
  length : ∀ u, (g u).length = Config.blockSize
  inj : ∀ {u v : List Byte}, u.length = Config.blockSize → v.length = Config.blockSize → g u = g v → u = v

theorem isEcb_ecbEnc : IsEcb .ecbEnc (encBlock Config.bt) .enc where
  check _ _ := rfl
  effect := effectOf_ecbEnc
  length := encBlock_length Config.bt
  inj := encBlock_inj Config.bt

theorem isEcb_ecbDec : IsEcb .ecbDec (decBlock Config.bt) .dec where
  check _ _ := rfl
  effect := effectOf_ecbDec
  length := decBlock_length Config.bt
  inj := decBlock_inj Config.bt

theorem isEcb_of_mem {f : List Byte → Instr} (hf : f ∈ [Instr.ecbEnc, Instr.ecbDec]) : ∃ g call, IsEcb f g call := by
  simp only [List.mem_cons, List.not_mem_nil, or_false] at hf
  obtain rfl | rfl := hf
  · exact ⟨_, _, isEcb_ecbEnc⟩
  · exact ⟨_, _, isEcb_ecbDec⟩

namespace IsEcb

variable {f : List Byte → Instr} {g : List Byte → List Byte} {call : List Byte → BtCall} {x : List Byte}

/-- On whole blocks: the output by its length and its blocks, and the state it is answered in. -/
theorem exec_wholeBlocks (h : IsEcb f g call) (s : State) (hx : x.length % Config.blockSize = 0) :
    ∃ out : List Byte, out.length = x.length ∧
      (∀ k, k < x.length / Config.blockSize → blk Config.blockSize out k = g (blk Config.blockSize x k)) ∧
      exec (f x) s = .next (answered 0 0 out
        { s with calls := s.calls ++
            (List.range (x.length / Config.blockSize)).map fun k => call (blk Config.blockSize x k) }) := by
  obtain ⟨hlen, hblk⟩ := map_blocks_flatten blockSize_pos h.length hx
  refine ⟨_, hlen, hblk, ?_⟩
  rw [exec_ok ((h.check x s).trans (needWholeBlocks_none hx)), h.effect, blocks, List.map_map]
  rfl

/-- On any other length: `ERR_LEN` with the remainder. -/
theorem exec_misaligned (h : IsEcb f g call) (s : State) (hx : x.length % Config.blockSize ≠ 0) :
    exec (f x) s = .next (answered 4 (x.length % Config.blockSize) [] s) := by
  rw [exec_err ((h.check x s).trans (needWholeBlocks_some hx)), bt_size, errRem_misaligned]
  rfl

theorem out_eq (h : IsEcb f g call) (s : State) (hx : x.length % Config.blockSize = 0) :
    (responseOf (f x) s).out = ((blocks Config.blockSize x).map g).flatten := by
  rw [responseOf_out, bodyOf_ok ((h.check x s).trans (needWholeBlocks_none hx)), h.effect]

/-- Block `k` of the output is `g` of block `k` of the input, whatever the other blocks are (R80). -/
theorem blk_out (h : IsEcb f g call) (s : State) (hx : x.length % Config.blockSize = 0) {k : Nat}
    (hk : k < x.length / Config.blockSize) :
    blk Config.blockSize (responseOf (f x) s).out k = g (blk Config.blockSize x k) := by
  rw [h.out_eq s hx]
  exact (map_blocks_flatten blockSize_pos h.length hx).2 k hk

/-- Where `g'` undoes `g` on blocks, the command of `g'` undoes the command of `g`, in any two states. -/
theorem out_undo {f' : List Byte → Instr} {g' : List Byte → List Byte} {call' : List Byte → BtCall}
    (h : IsEcb f g call) (h' : IsEcb f' g' call') (hundo : ∀ u : List Byte, u.length = Config.blockSize → g' (g u) = u)
    (s u : State) (hx : x.length % Config.blockSize = 0) :
    (responseOf (f' (responseOf (f x) s).out) u).out = x := by
  have hlen := (map_blocks_flatten blockSize_pos h.length hx).1
  have hcut : blocks Config.blockSize ((blocks Config.blockSize x).map g).flatten = (blocks Config.blockSize x).map g :=
    blocks_flatten blockSize_pos (List.forall_mem_map.2 fun _ _ => h.length _)
  have hback : ((blocks Config.blockSize x).map g).map g' = blocks Config.blockSize x := by
    rw [List.map_map]
    exact (List.map_congr_left fun v hv => hundo v (mem_blocks_length hv)).trans (List.map_id _)
  rw [h.out_eq s hx, h'.out_eq u (hlen ▸ hx), hcut, hback, flatten_blocks blockSize_pos hx]

end IsEcb

theorem encode_ecbEnc (x : List Byte) : encode (.ecbEnc x) = (BitVec.ofNat 32 (0x10000000 + x.length), x) := by
  simp [encode, opcodeOf, Instr.len, Instr.input]

theorem encode_ecbDec (x : List Byte) : encode (.ecbDec x) = (BitVec.ofNat 32 (0x11000000 + x.length), x) := by
  simp [encode, opcodeOf, Instr.len, Instr.input]

/-- Settles O18: `ECB_ENC` is the shape with `E`, on whole blocks and on any other length. -/
theorem ecbEncEncryptsEachBlock : Obligations.EcbEncEncryptsEachBlock := fun s x =>
  ⟨encode_ecbEnc x, isEcb_ecbEnc.exec_wholeBlocks s, isEcb_ecbEnc.exec_misaligned s⟩

/-- Settles O19: `ECB_DEC` is the shape with `D`, on whole blocks and on any other length. -/
theorem ecbDecDecryptsEachBlock : Obligations.EcbDecDecryptsEachBlock := fun s x =>
  ⟨encode_ecbDec x, isEcb_ecbDec.exec_wholeBlocks s, isEcb_ecbDec.exec_misaligned s⟩

/-- Settles O20: `E` and `D` undo each other on every block (R9), and so do the two commands. -/
theorem ecbRoundTrip : Obligations.EcbRoundTrip := fun s u _ hp =>
  ⟨⟨_, _, _, _, runs_nextOf .., runs_nextOf ..,
      isEcb_ecbEnc.out_undo isEcb_ecbDec (fun _ hu => decBlock_encBlock Config.bt hu) s u hp⟩,
    ⟨_, _, _, _, runs_nextOf .., runs_nextOf ..,
      isEcb_ecbDec.out_undo isEcb_ecbEnc (fun _ hu => encBlock_decBlock Config.bt hu) s u hp⟩⟩

/-- Settles O21: an output block is a function of the input block at its position alone. -/
theorem ecbOutputFollowsBlockOrder : Obligations.EcbOutputFollowsBlockOrder := by
  intro f hf s u p q order hp hq horder
  obtain ⟨g, call, h⟩ := isEcb_of_mem hf
  refine ⟨_, _, _, _, runs_nextOf (f p) s, runs_nextOf (f q) u, fun k hk => ?_⟩
  obtain ⟨hlt, hblk⟩ := horder k hk
  rw [h.blk_out u hq hk, h.blk_out s hp hlt, hblk]

/-- Settles O22: an output block is an injective function of the input block at its position alone. -/
theorem ecbChangeStaysInItsBlock : Obligations.EcbChangeStaysInItsBlock := by
  intro f hf s u p q m hp hlen hm hne hagree
  obtain ⟨g, call, h⟩ := isEcb_of_mem hf
  have outP {k : Nat} (hk : k < p.length / Config.blockSize) := h.blk_out s hp hk
  have outQ {k : Nat} (hk : k < p.length / Config.blockSize) :=
    h.blk_out (x := q) u (hlen ▸ hp) (hlen ▸ hk)
  refine ⟨_, _, _, _, runs_nextOf (f p) s, runs_nextOf (f q) u, ?_, fun k hk hkm => ?_⟩
  · rw [outP hm, outQ hm]
    exact fun heq => hne (h.inj (blk_length_of_lt hm) (blk_length_of_lt (hlen ▸ hm)) heq)
  · rw [outP hk, outQ hk, hagree k hk hkm]

end Sys2Proof.Machine
end

section
/-! The CBC unit on buffers (R91 to R96). What both directions share is the chaining value: block `k` meets the block
before it, or the `CV` of before, and `CV` ends as what the block after the last one would meet. Each output block is
given by one equation, from which the statements about changed blocks follow by the injectivity of `E`, `D` and
`xorB`. -/

namespace Sys2Proof.Machine

/-! ### The chaining value -/

/-- The chaining value block `k` meets where the ciphertext is `c` and `CV` was `cv`: `C_(k-1)`, or `cv` for block 0. -/
def chainAt (cv c : List Byte) (k : Nat) : List Byte := if k = 0 then cv else blk Config.blockSize c (k - 1)

@[simp] theorem chainAt_zero (cv c : List Byte) : chainAt cv c 0 = cv := rfl

@[simp] theorem chainAt_succ (cv c : List Byte) (k : Nat) : chainAt cv c (k + 1) = blk Config.blockSize c k := rfl

theorem chainAt_of_pos {k : Nat} (hk : 0 < k) (cv c : List Byte) :
    chainAt cv c k = blk Config.blockSize c (k - 1) := if_neg hk.ne'

/-! ### Encryption, block by block (R92) -/

/-- The ciphertext of the buffer `x` chained from `cv`. -/
def cbcEncOut (cv x : List Byte) : List Byte := (cbcEncBlocks Config.bt cv (blocks Config.blockSize x)).flatten

section
variable (cv : List Byte) {x : List Byte} {k : Nat}

theorem cbcEncOut_length (hx : x.length % Config.blockSize = 0) : (cbcEncOut cv x).length = x.length :=
  flatten_length_of_block_count (fun _ hu => mem_cbcEncBlocks_length Config.bt hu) (by simp) hx

theorem blk_cbcEncOut_eq_getElem (hk : k < x.length / Config.blockSize) :
    blk Config.blockSize (cbcEncOut cv x) k =
      (cbcEncBlocks Config.bt cv (blocks Config.blockSize x))[k]'(by simpa using hk) :=
  blk_flatten blockSize_pos (fun _ hu => mem_cbcEncBlocks_length Config.bt hu) (by simpa using hk)

/-- `C_k = E(xorB(P_k, C_(k-1)))`, on buffers. -/
theorem blk_cbcEncOut (hk : k < x.length / Config.blockSize) :
    blk Config.blockSize (cbcEncOut cv x) k =
      encBlock Config.bt (xorB Config.blockSize (blk Config.blockSize x k) (chainAt cv (cbcEncOut cv x) k)) := by
  rw [blk_cbcEncOut_eq_getElem cv hk, cbcEncBlocks_getElem Config.bt cv _ k (by simpa using hk), blocks_getElem,
    bt_size]
  cases k with
  | zero => rfl
  | succ k => rw [chainAt_succ, blk_cbcEncOut_eq_getElem cv (by omega)]; rfl

/-- The last ciphertext block, or the old `CV` for no blocks, is the chaining value after the last block. -/
theorem getLastD_cbcEncBlocks (x : List Byte) :
    (cbcEncBlocks Config.bt cv (blocks Config.blockSize x)).getLastD cv =
      chainAt cv (cbcEncOut cv x) (x.length / Config.blockSize) := by
  rw [getLastD_flatten blockSize_pos fun _ hu => mem_cbcEncBlocks_length Config.bt hu, cbcEncBlocks_length,
    blocks_length]
  rfl

/-- What `E` is called with: `xorB(P_k, C_(k-1))` in increasing `k`. -/
theorem cbcEncCalls_eq (x : List Byte) :
    cbcEncCalls Config.bt cv (blocks Config.blockSize x) (cbcEncBlocks Config.bt cv (blocks Config.blockSize x)) =
      (List.range (x.length / Config.blockSize)).map fun k =>
        .enc (xorB Config.blockSize (blk Config.blockSize x k) (chainAt cv (cbcEncOut cv x) k)) := by
  apply List.ext_getElem
  · simp [cbcEncCalls]
  · intro k _ h
    have hk : k < x.length / Config.blockSize := by simpa using h
    simp only [cbcEncCalls, List.getElem_map, List.getElem_zipWith, List.getElem_range, blocks_getElem, bt_size]
    cases k with
    | zero => rfl
    | succ k => rw [List.getElem_cons_succ, chainAt_succ, blk_cbcEncOut_eq_getElem cv (by omega)]

end

/-- The effect of `CBC_ENC`, on buffers. -/
theorem effectOf_cbcEnc_chained (x : List Byte) (s : State) : effectOf (.cbcEnc x) s =
    (writeCv (chainAt s.cv (cbcEncOut s.cv x) (x.length / Config.blockSize))
      (recordCalls ((List.range (x.length / Config.blockSize)).map fun k =>
        .enc (xorB Config.blockSize (blk Config.blockSize x k) (chainAt s.cv (cbcEncOut s.cv x) k))) s),
      cbcEncOut s.cv x) := by
  rw [effectOf_cbcEnc, getLastD_cbcEncBlocks, cbcEncCalls_eq, cbcEncOut]

/-! ### Decryption, block by block (R93) -/

/-- The plaintext of the buffer `x` chained from `cv`. -/
def cbcDecOut (cv x : List Byte) : List Byte := (cbcDecBlocks Config.bt cv (blocks Config.blockSize x)).flatten

/-- `P_k = xorB(D(C_k), C_(k-1))`, where the ciphertext is `x` and `CV` was `cv`. -/
def cbcDecBlockAt (cv x : List Byte) (k : Nat) : List Byte :=
  xorB Config.blockSize (decBlock Config.bt (blk Config.blockSize x k)) (chainAt cv x k)

section
variable (cv : List Byte) {x : List Byte} {k : Nat}

theorem cbcDecBlocks_blocks (x : List Byte) :
    cbcDecBlocks Config.bt cv (blocks Config.blockSize x) =
      (List.range (x.length / Config.blockSize)).map (cbcDecBlockAt cv x) := by
  apply List.ext_getElem
  · simp
  · intro k _ h
    rw [cbcDecBlocks_getElem Config.bt cv _ k (by simpa using h), List.getElem_map, List.getElem_range, blocks_getElem,
      cbcDecBlockAt, bt_size]
    cases k with
    | zero => rfl
    | succ k => simp [blocks_getElem]

theorem cbcDecOut_length (hx : x.length % Config.blockSize = 0) : (cbcDecOut cv x).length = x.length :=
  flatten_length_of_block_count (fun _ hu => mem_cbcDecBlocks_length Config.bt hu) (by simp) hx

theorem blk_cbcDecOut (hk : k < x.length / Config.blockSize) :
    blk Config.blockSize (cbcDecOut cv x) k = cbcDecBlockAt cv x k := by
  rw [cbcDecOut, blk_flatten blockSize_pos (fun _ hu => mem_cbcDecBlocks_length Config.bt hu) (by simpa using hk)]
  simp [cbcDecBlocks_blocks]

/-- Decrypting backward, the blocks still to be recovered are put in front of those written so far (R94). -/
theorem cbcDecBackward_eq_append (x : List Byte) (k : Nat) (out : List Byte) :
    cbcDecBackward Config.bt cv x k out = ((List.range k).map (cbcDecBlockAt cv x)).flatten ++ out := by
  induction k generalizing out with
  | zero => rfl
  | succ k ih =>
    rw [cbcDecBackward, ih, List.range_succ]
    simp [cbcDecBlockAt, chainAt]

/-- The backward pass over all blocks gives the output of the forward one. -/
theorem cbcDecBackward_eq_cbcDecOut (x : List Byte) :
    cbcDecBackward Config.bt cv x (x.length / Config.blockSize) [] = cbcDecOut cv x := by
  rw [cbcDecBackward_eq_append, List.append_nil, cbcDecOut, cbcDecBlocks_blocks]

end

/-- The effect of `CBC_DEC`, on buffers. -/
theorem effectOf_cbcDec_chained (x : List Byte) (s : State) : effectOf (.cbcDec x) s =
    (writeCv (chainAt s.cv x (x.length / Config.blockSize)) (recordDecCalls (blocks Config.blockSize x) s),
      cbcDecOut s.cv x) := by
  rw [effectOf_cbcDec, getLastD_blocks, chainAt, cbcDecOut]

/-- The `D` calls of the blocks of `x`, once each in some order, are all that is recorded, and one order is drawn. -/
theorem recordDecCalls_blocks (x : List Byte) (s : State) :
    ∃ made : List BtCall,
      made.Perm ((List.range (x.length / Config.blockSize)).map fun k => .dec (blk Config.blockSize x k)) ∧
      recordDecCalls (blocks Config.blockSize x) s =
        { s with calls := s.calls ++ made, orderDraws := s.orderDraws + 1 } := by
  obtain ⟨made, hcalls, hperm⟩ := recordDecCalls_calls s (blocks Config.blockSize x)
  refine ⟨made, ?_, ?_⟩
  · rwa [blocks, blockCount, List.map_map] at hperm
  · rw [← hcalls]
    rfl

/-! ### The commands -/

/-- A command that finds its length misaligned is answered with the remainder (R136). -/
theorem exec_misaligned {i : Instr} {s : State} {n : Nat}
    (h : checkOf i s = some (.misaligned (n % Config.blockSize))) :
    exec i s = .next (answered 4 (n % Config.blockSize) [] s) := by
  rw [exec_err h, errRem_misaligned]
  rfl

/-- A command that lacks its context is answered so (R134). -/
theorem exec_noCtx {i : Instr} {s : State} (h : checkOf i s = some .noCtx) : exec i s = .next (answered 2 0 [] s) := by
  rw [exec_err h]
  rfl

/-- An IV of another length than a block is answered so (R137). -/
theorem exec_ivLen {i : Instr} {s : State} (h : checkOf i s = some .ivLen) : exec i s = .next (answered 5 0 [] s) := by
  rw [exec_err h]
  rfl

section
variable {x : List Byte} {s : State} (hv : cbcValid s = true) (hx : x.length % Config.blockSize = 0)
include hv hx

theorem cbcEnc_out : (responseOf (.cbcEnc x) s).out = cbcEncOut s.cv x := by
  rw [responseOf_out, bodyOf_ok (checkOf_cbcEnc_ok hv hx), effectOf_cbcEnc_chained]

theorem cbcEnc_cv : (nextOf (.cbcEnc x) s).cv = chainAt s.cv (cbcEncOut s.cv x) (x.length / Config.blockSize) := by
  rw [nextOf_cv, bodyOf_ok (checkOf_cbcEnc_ok hv hx), effectOf_cbcEnc_chained, writeCv_cv]

theorem cbcDec_out : (responseOf (.cbcDec x) s).out = cbcDecOut s.cv x := by
  rw [responseOf_out, bodyOf_ok (checkOf_cbcDec_ok hv hx), effectOf_cbcDec_chained]

theorem cbcDec_cv : (nextOf (.cbcDec x) s).cv = chainAt s.cv x (x.length / Config.blockSize) := by
  rw [nextOf_cv, bodyOf_ok (checkOf_cbcDec_ok hv hx), effectOf_cbcDec_chained, writeCv_cv]

end

theorem encode_cbcLdiv (x : List Byte) : encode (.cbcLdiv x) = (BitVec.ofNat 32 (0x20000000 + x.length), x) := by
  simp [encode, opcodeOf, Instr.len, Instr.input]

theorem encode_cbcEnc (x : List Byte) : encode (.cbcEnc x) = (BitVec.ofNat 32 (0x21000000 + x.length), x) := by
  simp [encode, opcodeOf, Instr.len, Instr.input]

theorem encode_cbcDec (x : List Byte) : encode (.cbcDec x) = (BitVec.ofNat 32 (0x22000000 + x.length), x) := by
  simp [encode, opcodeOf, Instr.len, Instr.input]

/-- Settles O23, by the effect of a load and the one error it can end in. -/
theorem cbcLdivLoadsIv : Obligations.CbcLdivLoadsIv := by
  intro s x
  refine ⟨encode_cbcLdiv x, fun hx => ?_, fun hx => exec_ivLen (checkOf_cbcLdiv_len s hx)⟩
  have hread : memRead x 0 Config.blockSize = x := by simp [memRead, ← hx]
  rw [exec_ok (checkOf_cbcLdiv_ok s hx), effectOf_cbcLdiv, hread]
  rfl

/-- Settles O24: the operand of block `k` is the plaintext block XORed with the chaining value it meets. -/
theorem cbcEncChainsBlocks : Obligations.CbcEncChainsBlocks := by
  intro s x
  refine ⟨encode_cbcEnc x, fun hv => exec_noCtx (checkOf_cbcEnc_noCtx x hv),
    fun hv hx => exec_misaligned (checkOf_cbcEnc_len hv hx), fun hv hx => ?_⟩
  refine ⟨cbcEncOut s.cv x,
    fun k => xorB Config.blockSize (blk Config.blockSize x k) (chainAt s.cv (cbcEncOut s.cv x) k),
    cbcEncOut_length s.cv hx, fun k hk => ⟨rfl, blk_cbcEncOut s.cv hk⟩, ?_⟩
  rw [exec_ok (checkOf_cbcEnc_ok hv hx), effectOf_cbcEnc_chained]
  rfl

/-- Settles O25: the output block by block, and the calls as one `D` of each block in some order. -/
theorem cbcDecChainsBlocks : Obligations.CbcDecChainsBlocks := by
  intro s x
  refine ⟨encode_cbcDec x, fun hv => exec_noCtx (checkOf_cbcDec_noCtx x hv),
    fun hv hx => exec_misaligned (checkOf_cbcDec_len hv hx), fun hv hx => ?_⟩
  obtain ⟨made, hperm, hcalls⟩ := recordDecCalls_blocks x s
  refine ⟨cbcDecOut s.cv x, made, cbcDecOut_length s.cv hx, fun k hk => blk_cbcDecOut s.cv hk, hperm, ?_⟩
  rw [exec_ok (checkOf_cbcDec_ok hv hx), effectOf_cbcDec_chained, hcalls]
  rfl

/-- Settles O26: the backward pass puts the same blocks together, from the last to the first. -/
theorem cbcDecBackwardFormAgrees : Obligations.CbcDecBackwardFormAgrees := by
  intro s x hv hx hpos
  refine ⟨_, _, runs_nextOf (.cbcDec x) s, ?_, ?_⟩
  · rw [cbcDec_out hv hx, cbcDecBackward_eq_cbcDecOut]
  · rw [cbcDec_cv hv hx, chainAt_of_pos hpos, blk]

/-- Settles O27: decryption undoes encryption from the same `CV`, and both end with the chaining value after the last
ciphertext block. -/
theorem cbcRoundTrip : Obligations.CbcRoundTrip := by
  intro s u p hs hu hcv hp
  have hlen := cbcEncOut_length s.cv hp
  have hc : (cbcEncOut s.cv p).length % Config.blockSize = 0 := by rw [hlen, hp]
  refine ⟨_, _, _, _, runs_nextOf (.cbcEnc p) s, runs_nextOf (.cbcDec _) u, ?_, ?_, fun hpos => ?_⟩
  · rw [cbcEnc_out hs hp, cbcDec_out hu hc, ← hcv]
    exact cbcDecBlocks_flatten_cbcEncBlocks s.cv hp
  · rw [cbcEnc_out hs hp, cbcEnc_cv hs hp, cbcDec_cv hu hc, hlen, hcv]
  · rw [cbcEnc_cv hs hp, cbcEnc_out hs hp, chainAt_of_pos hpos]

/-- Settles O30: the encryption leaves its last ciphertext block in `CV`, which is what block 0 of the decryption
meets. -/
theorem cbcDecAfterEncStartsFromItsLastBlock : Obligations.CbcDecAfterEncStartsFromItsLastBlock := by
  intro s p c hv hp hpos hc hcpos
  have hvalid : cbcValid (nextOf (.cbcEnc p) s) = true := (cbcValid_nextOf _ s).2 (.inl hv)
  refine ⟨_, _, _, _, runs_nextOf (.cbcEnc p) s, runs_nextOf (.cbcDec c) _, ?_⟩
  rw [cbcDec_out hvalid hc, blk_cbcDecOut _ hcpos, cbcDecBlockAt, chainAt_zero, cbcEnc_cv hv hp, chainAt_of_pos hpos,
    cbcEnc_out hv hp]

/-! ### Changed blocks (R95) -/

section
variable {cv p q : List Byte} {m k : Nat}

/-- Plaintexts that agree on their first `m` blocks are chained alike up to block `m`. -/
theorem chainAt_cbcEncOut_congr (hlen : q.length = p.length) (hm : m ≤ p.length / Config.blockSize)
    (hagree : ∀ k, k < m → blk Config.blockSize p k = blk Config.blockSize q k) :
    chainAt cv (cbcEncOut cv p) m = chainAt cv (cbcEncOut cv q) m := by
  induction m with
  | zero => rfl
  | succ m ih =>
    have hchain := ih (by omega) fun k hk => hagree k (by omega)
    rw [chainAt_succ, chainAt_succ, blk_cbcEncOut cv (by omega), blk_cbcEncOut cv (by rw [hlen]; omega), hchain,
      hagree m (by omega)]

/-- Equal ciphertext blocks have equal operands. -/
theorem xorB_eq_of_blk_cbcEncOut_eq (hlen : q.length = p.length) (hk : k < p.length / Config.blockSize)
    (h : blk Config.blockSize (cbcEncOut cv p) k = blk Config.blockSize (cbcEncOut cv q) k) :
    xorB Config.blockSize (blk Config.blockSize p k) (chainAt cv (cbcEncOut cv p) k) =
      xorB Config.blockSize (blk Config.blockSize q k) (chainAt cv (cbcEncOut cv q) k) := by
  rw [blk_cbcEncOut cv hk, blk_cbcEncOut cv (hlen ▸ hk)] at h
  exact encBlock_inj Config.bt (xorB_length ..) (xorB_length ..) h

theorem blk_cbcEncOut_length (cv : List Byte) (hk : k < p.length / Config.blockSize) :
    (blk Config.blockSize (cbcEncOut cv p) k).length = Config.blockSize := by
  rw [blk_cbcEncOut cv hk]
  exact encBlock_length ..

/-- The first block that differs differs in the ciphertext, and so does every block chained to it. -/
theorem blk_cbcEncOut_ne (hlen : q.length = p.length)
    (hbefore : ∀ k, k < m → blk Config.blockSize p k = blk Config.blockSize q k)
    (hne : blk Config.blockSize p m ≠ blk Config.blockSize q m)
    (hafter : ∀ k, m < k → k < p.length / Config.blockSize → blk Config.blockSize p k = blk Config.blockSize q k)
    (hmk : m ≤ k) (hk : k < p.length / Config.blockSize) :
    blk Config.blockSize (cbcEncOut cv p) k ≠ blk Config.blockSize (cbcEncOut cv q) k := by
  induction k, hmk using Nat.le_induction with
  | base =>
    intro heq
    have hop := xorB_eq_of_blk_cbcEncOut_eq hlen hk heq
    rw [chainAt_cbcEncOut_congr hlen hk.le hbefore] at hop
    exact hne (xorB_left_inj (blk_length_of_lt hk) (blk_length_of_lt (hlen ▸ hk)) hop)
  | succ k hmk ih =>
    intro heq
    have hk' : k < p.length / Config.blockSize := by omega
    have hop := xorB_eq_of_blk_cbcEncOut_eq hlen hk heq
    rw [hafter (k + 1) (by omega) hk] at hop
    exact ih hk' (xorB_right_inj (blk_cbcEncOut_length cv hk') (blk_cbcEncOut_length cv (hlen ▸ hk')) hop)

end

/-- Settles O28: the chains agree up to the changed block and differ from it on. -/
theorem cbcEncChangeReachesEveryLaterBlock : Obligations.CbcEncChangeReachesEveryLaterBlock := by
  intro s u p q m hs hu hcv hp hlen hm hbefore
  refine ⟨_, _, _, _, runs_nextOf (.cbcEnc p) s, runs_nextOf (.cbcEnc q) u, ?_⟩
  rw [cbcEnc_out hs hp, cbcEnc_out hu (hlen ▸ hp), ← hcv]
  refine ⟨fun k hk => ?_, fun hne hafter k => blk_cbcEncOut_ne hlen hbefore hne hafter⟩
  exact chainAt_cbcEncOut_congr (m := k + 1) hlen (by omega) fun j hj => hbefore j (by omega)

/-- Settles O29: an output block is made of the ciphertext block at its position and the one before it, injectively in
each. -/
theorem cbcDecChangeStaysInTwoBlocks : Obligations.CbcDecChangeStaysInTwoBlocks := by
  intro s u p q m hs hu hcv hp hlen hagree
  have outP {k : Nat} (hk : k < p.length / Config.blockSize) := blk_cbcDecOut s.cv hk
  have outQ {k : Nat} (hk : k < p.length / Config.blockSize) := blk_cbcDecOut (x := q) s.cv (hlen ▸ hk)
  have chain {k : Nat} (hk : k < p.length / Config.blockSize) (hkm : k ≠ m + 1) :
      chainAt s.cv p k = chainAt s.cv q k := by
    cases k with
    | zero => rfl
    | succ k => exact hagree k (by omega) (by omega)
  refine ⟨_, _, _, _, runs_nextOf (.cbcDec p) s, runs_nextOf (.cbcDec q) u, ?_⟩
  rw [cbcDec_out hs hp, cbcDec_out hu (hlen ▸ hp), ← hcv]
  refine ⟨fun k hk hkm hkm' => ?_, fun hm hne => ⟨?_, fun hm' => ?_⟩⟩
  · rw [outP hk, outQ hk, cbcDecBlockAt, cbcDecBlockAt, hagree k hk hkm, chain hk hkm']
  · rw [outP hm, outQ hm, cbcDecBlockAt, cbcDecBlockAt, chain hm (by omega)]
    intro heq
    have hdec := xorB_left_inj (decBlock_length Config.bt _) (decBlock_length Config.bt _) heq
    exact hne (decBlock_inj Config.bt (blk_length_of_lt hm) (blk_length_of_lt (hlen ▸ hm)) hdec)
  · rw [outP hm', outQ hm', cbcDecBlockAt, cbcDecBlockAt, hagree (m + 1) hm' (by omega)]
    exact fun heq => hne (xorB_right_inj (blk_length_of_lt hm) (blk_length_of_lt (hlen ▸ hm)) heq)

end Sys2Proof.Machine
end

section
/-! The RC4 unit (R106 to R109). Key scheduling reads the key only through its repetition; generation XORs the buffer with
a keystream that the context and the length alone fix. The statements about two runs follow from these two facts. -/

namespace Sys2Proof.Machine

/-! ### Key scheduling (R106) -/

theorem encode_rc4Ksa (key : List Byte) : encode (.rc4Ksa key) = (BitVec.ofNat 32 (0x30000000 + key.length), key) := by
  simp [encode, opcodeOf, Instr.len, Instr.input]

theorem ksaContext_eq (key : List Byte) : ksaContext key = ⟨(ksaAt key 256).1, 0x00#8, 0x00#8⟩ := rfl

theorem setRc4Valid_writeRc4 (c : Rc4Ctx) (s : State) :
    setRc4Valid (writeRc4 c s) = { s with rc4 := c, status := s.status ||| 0x02#8 } := rfl

/-- A key of another length than 5 to 32 bytes is answered so (R135). -/
theorem exec_keySize {i : Instr} {s : State} (h : checkOf i s = some .keySize) :
    exec i s = .next (answered 3 0 [] s) := by
  rw [exec_err h]
  rfl

/-- `RC4_KSA` with a key of 5 to 32 bytes leaves the context of that key. -/
theorem rc4Ksa_rc4 {key : List Byte} (h₁ : 5 ≤ key.length) (h₂ : key.length ≤ 32) (s : State) :
    (nextOf (.rc4Ksa key) s).rc4 = ksaContext key := by
  rw [nextOf_rc4, bodyOf_ok (checkOf_rc4Ksa_ok s h₁ h₂), effectOf_rc4Ksa, setRc4Valid_rc4, writeRc4_rc4]

/-- Keys that repeat alike over the first `n` positions are shuffled alike for `n` steps. -/
theorem ksaAt_congr {key key' : List Byte} {n : Nat} (h : ∀ m, m < n → keyByte key m = keyByte key' m) :
    ksaAt key n = ksaAt key' n := by
  induction n with
  | zero => rfl
  | succ n ih =>
    rw [ksaAt_succ, ksaAt_succ, ih fun m hm => h m (Nat.lt_succ_of_lt hm), ksaStep, ksaStep, h n n.lt_succ_self]

/-- Settles O32, with the shuffle of `ksaAt` as the trace. -/
theorem rc4KsaSchedulesKey : Obligations.Rc4KsaSchedulesKey := by
  intro s key
  refine ⟨encode_rc4Ksa key, fun h₁ h₂ => ?_, fun h => exec_keySize (checkOf_rc4Ksa_len s h)⟩
  refine ⟨fun n => (ksaAt key n).1, fun n => (ksaAt key n).2, ksaTrace_ksaAt key, ?_⟩
  rw [exec_ok (checkOf_rc4Ksa_ok s h₁ h₂), effectOf_rc4Ksa, setRc4Valid_writeRc4, ksaContext_eq]

/-- Settles O33: the context of a key is a function of its repetition. -/
theorem rc4KsaDependsOnKeyRepetition : Obligations.Rc4KsaDependsOnKeyRepetition := by
  intro s u key key' h₁ h₂ h₁' h₂' hrep
  refine ⟨_, _, _, _, runs_nextOf (.rc4Ksa key) s, runs_nextOf (.rc4Ksa key') u, ?_⟩
  rw [rc4Ksa_rc4 h₁ h₂, rc4Ksa_rc4 h₁' h₂', ksaContext_eq, ksaContext_eq, ksaAt_congr hrep]

/-! ### The keystream (R108) -/

/-- The first `n` keystream bytes from the context `c`. -/
def keystream (c : Rc4Ctx) (n : Nat) : List Byte := (List.range n).map fun t => prgaByte (prgaAt c (t + 1))

@[simp] theorem keystream_length (c : Rc4Ctx) (n : Nat) : (keystream c n).length = n := by simp [keystream]

@[simp] theorem keystream_getElem (c : Rc4Ctx) (n t : Nat) (ht : t < (keystream c n).length) :
    (keystream c n)[t] = prgaByte (prgaAt c (t + 1)) := by simp [keystream]

/-- Generation XORs the buffer with the keystream of its length. -/
theorem prgaRun_snd (c : Rc4Ctx) (x : List Byte) :
    (prgaRun c x).2 = List.zipWith (· ^^^ ·) x (keystream c x.length) := by
  apply List.ext_getElem
  · simp
  · intro t h _
    rw [prgaRun_snd_getElem c x t (by simpa using h), List.getElem_zipWith, keystream_getElem]

/-- XORing a buffer with its XOR with `k` leaves `k`. -/
theorem zipWith_xor_self_left {x k : List Byte} (h : x.length = k.length) :
    List.zipWith (· ^^^ ·) x (List.zipWith (· ^^^ ·) x k) = k := by
  apply List.ext_getElem
  · simp [h]
  · intro t _ _
    simp

/-- XORing a buffer with `k` twice leaves the buffer. -/
theorem zipWith_xor_self_right {x k : List Byte} (h : x.length = k.length) :
    List.zipWith (· ^^^ ·) (List.zipWith (· ^^^ ·) x k) k = x := by
  apply List.ext_getElem
  · simp [h]
  · intro t _ _
    simp

/-! ### Generation (R108, R109) -/

theorem encode_rc4Prga (x : List Byte) : encode (.rc4Prga x) = (BitVec.ofNat 32 (0x31000000 + x.length), x) := by
  simp [encode, opcodeOf, Instr.len, Instr.input]

section
variable {s : State} (hv : rc4Valid s = true) (x : List Byte)
include hv

/-- `RC4_PRGA` leaves the context advanced once for each byte. -/
theorem rc4Prga_rc4 : (nextOf (.rc4Prga x) s).rc4 = prgaAt s.rc4 x.length := by
  rw [nextOf_rc4, bodyOf_ok (checkOf_rc4Prga_ok x hv), effectOf_rc4Prga, writeRc4_rc4, prgaRun_fst]

/-- `RC4_PRGA` puts out its buffer XORed with the keystream. -/
theorem rc4Prga_out :
    (responseOf (.rc4Prga x) s).out = List.zipWith (· ^^^ ·) x (keystream s.rc4 x.length) := by
  rw [responseOf_out, bodyOf_ok (checkOf_rc4Prga_ok x hv), effectOf_rc4Prga, prgaRun_snd]

end

theorem rc4Prga_out_length {s : State} (hv : rc4Valid s = true) (x : List Byte) :
    (responseOf (.rc4Prga x) s).out.length = x.length := by
  simp [rc4Prga_out hv]

/-- On the empty buffer `RC4_PRGA` changes no register (R108 (b)). -/
theorem registers_nextOf_rc4Prga_nil {s : State} (hv : rc4Valid s = true) :
    registers (nextOf (.rc4Prga []) s) = registers s := by
  rw [registers_nextOf, bodyOf_ok (checkOf_rc4Prga_ok [] hv)]
  rfl

/-- Settles O34, with the repeated advance of `prgaAt` as the trace. -/
theorem rc4PrgaXorsKeystream : Obligations.Rc4PrgaXorsKeystream := by
  intro s x
  refine ⟨encode_rc4Prga x, fun hv => exec_noCtx (checkOf_rc4Prga_noCtx x hv), fun hv => ?_⟩
  refine ⟨prgaAt s.rc4, fun t => prgaByte (prgaAt s.rc4 (t + 1)), (prgaRun s.rc4 x).2, rfl,
    prgaTrace_prgaAt s.rc4 x.length, prgaRun_snd_length s.rc4 x, fun t ht => ?_, ?_⟩
  · rw [List.getD_eq_getElem _ _ ht, List.getD_eq_getElem _ _ (by simpa using ht), prgaRun_snd_getElem s.rc4 x t ht]
  · rw [exec_ok (checkOf_rc4Prga_ok x hv), effectOf_rc4Prga, prgaRun_fst]
    rfl

/-- Settles O35: the context after and the keystream are functions of the context before and the length. -/
theorem rc4PrgaAdvancesTheSameForAnyData : Obligations.Rc4PrgaAdvancesTheSameForAnyData := by
  intro s u x y hs hu hrc4 hlen
  refine ⟨_, _, _, _, runs_nextOf (.rc4Prga x) s, runs_nextOf (.rc4Prga y) u, ?_, ?_⟩
  · rw [rc4Prga_rc4 hs, rc4Prga_rc4 hu, hrc4, hlen]
  · rw [rc4Prga_out hs, rc4Prga_out hu, zipWith_xor_self_left (keystream_length ..).symm,
      zipWith_xor_self_left (keystream_length ..).symm, hrc4, hlen]

/-- Settles O36: both runs XOR with the same keystream. -/
theorem rc4PrgaIsAnInvolution : Obligations.Rc4PrgaIsAnInvolution := by
  intro s u x hs hu hrc4
  have hlen := rc4Prga_out_length hs x
  refine ⟨_, _, _, _, runs_nextOf (.rc4Prga x) s, runs_nextOf (.rc4Prga _) u, ?_, ?_⟩
  · rw [rc4Prga_out hu, hlen, rc4Prga_out hs, ← hrc4]
    exact zipWith_xor_self_right (keystream_length ..).symm
  · rw [rc4Prga_rc4 hs, rc4Prga_rc4 hu, hlen, hrc4]

/-- Settles O37: each advance of the context adds 1 to `I` modulo 256. -/
theorem rc4PrgaAdvancesIndexByLen : Obligations.Rc4PrgaAdvancesIndexByLen := by
  intro s x hv
  have hi : (nextOf (.rc4Prga x) s).rc4.i = s.rc4.i + BitVec.ofNat 8 x.length := by
    rw [rc4Prga_rc4 hv, prgaAt_i]
  refine ⟨_, _, runs_nextOf (.rc4Prga x) s, hi, fun hx => ?_, ?_⟩
  · rw [hi, hx]
    exact BitVec.add_zero _
  · rintro rfl
    exact registers_nextOf_rc4Prga_nil hv

end Sys2Proof.Machine
end

section
/-! The system command `NOP` (R120). It makes no check and has no effect, so what is left of it is its answer. -/

namespace Sys2Proof.Machine

theorem encode_nop (x : List Byte) : encode (.nop x) = (BitVec.ofNat 32 (0x00000000 + x.length), x) := by
  simp [encode, opcodeOf, Instr.len, Instr.input]

/-- `NOP` makes no check, so it cannot fail. -/
theorem checkOf_nop (x : List Byte) (s : State) : checkOf (.nop x) s = none := rfl

/-- Settles O17: `NOP` passes its checks from every state, and its effect is the state before with no output. -/
theorem nopAnswersStatus : Obligations.NopAnswersStatus := by
  intro s x
  refine ⟨encode_nop x, ?_⟩
  rw [exec_ok (checkOf_nop x s), effectOf_nop]

end Sys2Proof.Machine
end

section
/-! A command that ends in an error (R130, R140, R141, R144): nothing of it is left but its response, so the registers
are those of before, and what follows it is answered as if it had not been sent. -/

namespace Sys2Proof.Machine

/-! ### Commands in states with the same registers -/

/-- A command leaves the same registers in states with the same registers. -/
theorem registers_nextOf_congr {s t : State} (h : registers s = registers t) (i : Instr) :
    registers (nextOf i s) = registers (nextOf i t) := by
  obtain ⟨-, -, hstatus⟩ := registers_eq_iff.1 h
  rw [registers_nextOf, registers_nextOf]
  exact bodyOf_congr (fun p => registers p.1) (checkOf_congr i hstatus) h (registers_effectOf_congr h i)

/-- A command is answered alike in states with the same registers (R168). -/
theorem responseOf_congr {s t : State} (h : registers s = registers t) (i : Instr) :
    responseOf i s = responseOf i t := by
  obtain ⟨-, -, hstatus⟩ := registers_eq_iff.1 h
  have hcheck : checkOf i s = checkOf i t := checkOf_congr i hstatus
  have hverdict : verdictOf i s = verdictOf i t := by simp only [verdictOf, hcheck]
  have hstat : readStatus (bodyOf i s).1 = readStatus (bodyOf i t).1 :=
    bodyOf_congr (fun p => readStatus p.1) hcheck (readStatus_congr hstatus)
      (readStatus_congr (registers_eq_iff.1 (registers_effectOf_congr h i)).2.2)
  have hout : (bodyOf i s).2 = (bodyOf i t).2 := bodyOf_congr Prod.snd hcheck rfl (effectOf_out_congr h i)
  simp only [responseOf, hverdict, hstat, hout]

/-! ### Failed commands -/

theorem exists_checkOf_of_checksOf_ne {i : Instr} {s : State} (h : checksOf i s ≠ (0, 0)) :
    ∃ e, checkOf i s = some e :=
  Option.ne_none_iff_exists'.1 (mt (checksOf_eq_zero_iff i s).2 h)

/-- A failed command leaves its response and nothing else. -/
theorem nextOf_err {i : Instr} {s : State} {e : CmdError} (h : checkOf i s = some e) :
    nextOf i s = { s with responses := s.responses ++ [responseOf i s] } := by
  rw [nextOf_eq_answer, answer, responseOf, bodyOf_err h]

/-- A failed command leaves the registers as they were (R140). -/
theorem registers_nextOf_of_checksOf_ne {i : Instr} {s : State} (h : checksOf i s ≠ (0, 0)) :
    registers (nextOf i s) = registers s := by
  obtain ⟨e, he⟩ := exists_checkOf_of_checksOf_ne h
  rw [registers_nextOf, bodyOf_err he]

theorem rspCode_responseOf (i : Instr) (s : State) : rspCode (responseOf i s) = (checksOf i s).1 := by
  rw [← verdictOf_toNat]
  exact rspCode_mk ..

theorem rspRem_responseOf (i : Instr) (s : State) : rspRem (responseOf i s) = (checksOf i s).2 := by
  rw [← verdictOf_toNat]
  exact rspRem_mk ..

/-- Settles O41: the whole next state is the state before with the response, and the response is that of the check. -/
theorem errorLeavesOnlyItsResponse : Obligations.ErrorLeavesOnlyItsResponse := by
  intro i s h
  obtain ⟨e, he⟩ := exists_checkOf_of_checksOf_ne h
  refine ⟨responseOf i s, ?_, rspCode_responseOf i s, rspRem_responseOf i s, ?_⟩
  · rw [exec_eq_nextOf, nextOf_err he]
  · rw [responseOf_out, bodyOf_err he]

/-- Settles O42: the failed command leaves the registers of before, and they alone fix what the next one answers and
leaves in them. -/
theorem failedCommandDoesNotDisturbTheNext : Obligations.FailedCommandDoesNotDisturbTheNext := by
  intro i j s h
  have hreg := registers_nextOf_of_checksOf_ne h
  refine ⟨nextOf i s, responseOf i s, nextOf j (nextOf i s), responseOf j (nextOf i s), nextOf j s, runs_nextOf i s,
    runs_nextOf j _, ?_, registers_nextOf_congr hreg j⟩
  rw [responseOf_congr hreg]
  exact runs_nextOf j s

/-- Settles O43: the second sending finds the registers of the first. -/
theorem failedCommandFailsAgain : Obligations.FailedCommandFailsAgain := by
  intro i s h
  refine ⟨nextOf i s, responseOf i s, nextOf i (nextOf i s), runs_nextOf i s, ?_⟩
  rw [← responseOf_congr (registers_nextOf_of_checksOf_ne h)]
  exact runs_nextOf i _

end Sys2Proof.Machine
end

section
/-! A misaligned length under any configuration (R136). The response word is the number of R138 whatever the block size
is, since the block size and a remainder by it each fit a byte (R8). -/

namespace Sys2Proof.Machine

theorem responseWord_eq_ofNat (c b r t : Byte) : responseWord c b r t =
    BitVec.ofNat 32 (c.toNat * 2 ^ 24 + b.toNat * 2 ^ 16 + r.toNat * 2 ^ 8 + t.toNat) := by
  rw [← responseWord_toNat, BitVec.ofNat_toNat, BitVec.setWidth_eq]

section
variable (bt : BlockTransform)

/-- A remainder by the block size fits the `REM` field (R136, D6). -/
theorem errRem_misaligned_mod_size (n : Nat) : (errRem (.misaligned (n % bt.size))).toNat = n % bt.size := by
  have hlt := Nat.mod_lt n bt.one_le_size
  have hle := bt.size_le
  simp only [errRem, BitVec.toNat_ofNat]
  omega

/-- What `ERR_LEN` leaves under a configuration. -/
theorem raiseErr_misaligned (n : Nat) (s : State) : raiseErr bt (.misaligned (n % bt.size)) s =
    { s with responses := s.responses ++
      [⟨BitVec.ofNat 32 (4 * 2 ^ 24 + bt.size * 2 ^ 16 + n % bt.size * 2 ^ 8 + statusNumber s), []⟩] } := by
  rw [raiseErr, answer, responseWord_eq_ofNat, blkSz_toNat, errRem_misaligned_mod_size, readStatus_toNat]
  rfl

/-- A checked command whose length is misaligned, and whose checks before that pass, raises `ERR_LEN`. -/
theorem runChecked_misaligned {check : Option CmdError} {n : Nat} (hcheck : check = needWholeBlocks bt n)
    (hn : n % bt.size ≠ 0) (f : State → State × List Byte) (s : State) :
    runChecked bt check f s = raiseErr bt (.misaligned (n % bt.size)) s := by
  rw [hcheck, needWholeBlocks_some hn, runChecked_some]

end

/-- With a context only the second check is left. -/
theorem firstError_needCbc_of_valid {s : State} (hv : cbcValid s = true) (b : Option CmdError) :
    firstError (needCbc s) b = b := by
  rw [needCbc_eq, if_pos hv, firstError_none]

/-- Settles O44: the length check is the one of the four commands that fails. -/
theorem misalignedLengthIsReportedWithItsRemainder : Obligations.MisalignedLengthIsReportedWithItsRemainder := by
  intro bt s x hx
  rw [← raiseErr_misaligned]
  exact ⟨runChecked_misaligned bt rfl hx _ s, runChecked_misaligned bt rfl hx _ s, fun hv =>
    ⟨runChecked_misaligned bt (firstError_needCbc_of_valid hv _) hx _ s,
      runChecked_misaligned bt (firstError_needCbc_of_valid hv _) hx _ s⟩⟩

end Sys2Proof.Machine
end

section
/-! Every delivered word, legal or not, is one answer (R138, R46): what a step on it leaves is a state that has taken
the word off the port and is then answered. An empty port is answered by nothing (R149). -/

namespace Sys2Proof.Machine

/-- Settles O6, by the equation of `step` for an empty port. -/
theorem stepWithoutEventKeepsState : Obligations.StepWithoutEventKeepsState :=
  fun _ hp => step_of_port_nil hp

/-! ### The verdict and the output, by the length of the buffer -/

/-- Only `ERR_LEN` has a remainder, and it is that of the length of the command (R132). -/
theorem checksOf_rem (i : Instr) (s : State) :
    (checksOf i s).2 = if (checksOf i s).1 = 4 then i.len % Config.blockSize else 0 := by
  cases i with
  | nop => rfl
  | ecbEnc | ecbDec | cbcLdiv | rc4Ksa | rc4Prga =>
    rw [checksOf]
    split <;> rfl
  | cbcEnc | cbcDec =>
    rw [checksOf]
    split
    · rfl
    · split <;> rfl

theorem checksOf_code_le (i : Instr) (s : State) : (checksOf i s).1 ≤ 5 := by
  rw [checkOf_checksOf]
  cases checkOf i s with
  | none => exact Nat.zero_le 5
  | some e => exact (errCode_pos_le e).2

theorem checksOf_code_eq_zero_iff (i : Instr) (s : State) : (checksOf i s).1 = 0 ↔ checkOf i s = none := by
  rw [checkOf_checksOf]
  cases checkOf i s with
  | none => simp
  | some e => simpa using (errCode_pos_le e).1.ne'

/-- The opcodes of the commands that put out as many bytes as they take in (R46). -/
def outputOpcodes : List Byte := [0x10#8, 0x11#8, 0x21#8, 0x22#8, 0x31#8]

theorem okOutputLength_eq (i : Instr) : okOutputLength i = if opcodeOf i ∈ outputOpcodes then i.len else 0 := by
  cases i <;> rfl

theorem bodyOf_out_length (i : Instr) (s : State) :
    (bodyOf i s).2.length = if (checksOf i s).1 = 0 ∧ opcodeOf i ∈ outputOpcodes then i.len else 0 := by
  simp only [checksOf_code_eq_zero_iff]
  cases hc : checkOf i s with
  | none => simp only [bodyOf_ok hc, effectOf_out_length hc, okOutputLength_eq, true_and]
  | some e => simp [bodyOf_err hc]

/-! ### The answer to a delivered word -/

/-- `CODE` `code`, `REM` `rem` and the output `out` are as R138 and R46 ask of an answer to the word `w`. -/
structure AnswersWord (w : Word) (code rem : Byte) (out : List Byte) : Prop where
  code_le : code.toNat ≤ 5
  rem_eq : rem.toNat = if code.toNat = 4 then lenField w % Config.blockSize else 0
  out_length : out.length = if code.toNat = 0 ∧ opField w ∈ outputOpcodes then lenField w else 0

/-- The answer to a command suits the word it is decoded from. -/
theorem answersWord_of_decode_ok {c : Command} {i : Instr} (hd : decode c = .ok i) (s : State) :
    AnswersWord c.word (verdictOf i s).1 (verdictOf i s).2 (bodyOf i s).2 := by
  obtain ⟨hop, hin⟩ := decode_ok hd
  have hlen : i.len = lenField c.word := by rw [Instr.len, hin, c.length_eq]
  obtain ⟨hcode, hrem⟩ := Prod.ext_iff.1 (verdictOf_toNat i s)
  dsimp only at hcode hrem
  refine ⟨?_, ?_, ?_⟩
  · rw [hcode]; exact checksOf_code_le i s
  · rw [hcode, hrem, ← hlen]; exact checksOf_rem i s
  · rw [hcode, ← hop, ← hlen]; exact bodyOf_out_length i s

/-- `ERR_ILLEGAL` suits every word. -/
theorem answersWord_illegal (w : Word) : AnswersWord w (errCode .illegal) (errRem .illegal) [] :=
  ⟨by decide, rfl, by simp [errCode]⟩

theorem bodyOf_responses (i : Instr) (s : State) : (bodyOf i s).1.responses = s.responses :=
  bodyOf_of_effectOf (P := fun t => t.responses = s.responses) rfl fun _ => effectOf_responses i s

/-- A step on a delivered word answers it in a state that has taken it off the port and holds the responses of
before. -/
theorem step_eq_answer {s : State} {c : Command} {rest : List HostEvent} (hp : s.port = .command c :: rest) :
    ∃ code rem out u, step s = .next (answer Config.bt code rem out u) ∧ u.responses = s.responses ∧ u.port = rest ∧
      AnswersWord c.word code rem out := by
  cases hd : decode c with
  | ok i =>
    refine ⟨_, _, _, (bodyOf i { s with port := rest }).1, ?_, bodyOf_responses i _, bodyOf_port i _,
      answersWord_of_decode_ok hd { s with port := rest }⟩
    rw [step_of_port_command hp hd, exec_eq_nextOf, nextOf_eq_answer]
  | error e => exact ⟨_, _, _, _, step_of_port_illegal hp hd, rfl, rfl, answersWord_illegal c.word⟩

/-- Settles O45: the fields of the word of an answer are what it is made of, and `STAT` reads `STATUS` after the
command. -/
theorem everyCommandHasOneResponse : Obligations.EveryCommandHasOneResponse := by
  intro s c rest hp
  obtain ⟨code, rem, out, u, hstep, hresponses, hport, hanswer⟩ := step_eq_answer hp
  have hstatus : statusNumber (answer Config.bt code rem out u) = statusNumber u := statusNumber_congr rfl
  refine ⟨_, ⟨responseWord code (blkSz Config.bt) rem (readStatus u), out⟩, hstep, ?_, hport, ?_⟩
  · rw [answer_responses, hresponses]
  · simp only [responseWord_toNat, rspCode_mk, rspBlk_mk, rspRem_mk, rspStat_mk, blkSz_toNat, bt_size,
      readStatus_toNat, hstatus, true_and]
    exact ⟨hanswer.code_le, hanswer.rem_eq, hanswer.out_length⟩

end Sys2Proof.Machine
end
